-- ==== Sys2Proof/Word.lean ====
section
/-! DEFINITION. The word types of the core (10_state.md R20, 30_encoding.md R55, R56; 00_scope.md R12, R14).
Every stored quantity is an unsigned integer of a stated width, bit 0 least significant. -/

namespace Sys2Proof

/-- The 64-bit content of a register, of `DOUT`, or of a data word (R12). -/
abbrev Word := BitVec 64

/-- A 16-bit command word (R55), also the content of `FCMD` (R29). -/
abbrev CmdWord := BitVec 16

/-- The 128-bit product of the multiplier (R120). -/
abbrev Wide := BitVec 128

/-- A 3-bit register index; every value 0 to 7 names a register (R20, R43). -/
abbrev RegIdx := BitVec 3

end Sys2Proof
end

