-- ==== Sys2Proof/Syntax.lean ====
section
/-! DEFINITION. The commands of the set MRE-1 (30_encoding.md R55 to R59): one constructor per row of the
opcode map, and the raw `(cmd, data)` pair the host presents. -/

namespace Sys2Proof

/-- A command as the host presents it: a 16-bit command word and a 64-bit data word (R55). -/
structure Command where
  cmd : CmdWord
  data : Word
  deriving DecidableEq, Repr

/-- The fifteen commands (R59). Formats `D` and `RD` carry the data word, used whole and unsigned (R58);
the other formats ignore it, so it is no operand of theirs. -/
inductive Instr where
  | bro (data : Word)
  | rbp (data : Word)
  | new (rd : RegIdx) (data : Word)
  | fred (rd : RegIdx) (data : Word)
  | funb (rd : RegIdx) (data : Word)
  | val (rs1 : RegIdx)
  | mov (rd rs1 : RegIdx)
  | add (rd rs1 rs2 : RegIdx)
  | neg (rd rs1 : RegIdx)
  | sub (rd rs1 rs2 : RegIdx)
  | mul (rd rs1 rs2 : RegIdx)
  | recip (rd rs1 : RegIdx)
  | div (rd rs1 rs2 : RegIdx)
  | rem (rd rs1 rs2 : RegIdx)
  | eq (rs1 rs2 : RegIdx)
  deriving DecidableEq, Repr

/-- Why a command word is not legal (R60, R61): every such word is rejected under one of these names. -/
inductive Illegal where
  /-- Opcode 0x00 or 0x10 to 0x1F (R60). -/
  | unassignedOpcode
  /-- An assigned opcode with bits 1:0 not 00, or a nonzero register field its format does not use (R61). -/
  | reservedBits
  deriving DecidableEq, Repr

/-- The register a command writes, by the table of R23; the five commands that write none have none.
`FRED` and `FUNB` write it on success only, `RECIP`, `DIV` and `REM` unless they fault. -/
def Instr.dest : Instr → Option RegIdx
  | .bro _ => none
  | .rbp _ => none
  | .new rd _ => some rd
  | .fred rd _ => some rd
  | .funb rd _ => some rd
  | .val _ => none
  | .mov rd _ => some rd
  | .add rd _ _ => some rd
  | .neg rd _ => some rd
  | .sub rd _ _ => some rd
  | .mul rd _ _ => some rd
  | .recip rd _ => some rd
  | .div rd _ _ => some rd
  | .rem rd _ _ => some rd
  | .eq _ _ => none

/-- The registers a command reads, by the table of R23. -/
def Instr.sources : Instr → List RegIdx
  | .bro _ => []
  | .rbp _ => []
  | .new _ _ => []
  | .fred _ _ => []
  | .funb _ _ => []
  | .val rs1 => [rs1]
  | .mov _ rs1 => [rs1]
  | .add _ rs1 rs2 => [rs1, rs2]
  | .neg _ rs1 => [rs1]
  | .sub _ rs1 rs2 => [rs1, rs2]
  | .mul _ rs1 rs2 => [rs1, rs2]
  | .recip _ rs1 => [rs1]
  | .div _ rs1 rs2 => [rs1, rs2]
  | .rem _ rs1 rs2 => [rs1, rs2]
  | .eq rs1 rs2 => [rs1, rs2]

/-- The three commands that can raise `ZERO_DIVISOR`, with the register whose residue they test (R166). -/
def Instr.divisor : Instr → Option RegIdx
  | .bro _ => none
  | .rbp _ => none
  | .new _ _ => none
  | .fred _ _ => none
  | .funb _ _ => none
  | .val _ => none
  | .mov _ _ => none
  | .add _ _ _ => none
  | .neg _ _ => none
  | .sub _ _ _ => none
  | .mul _ _ _ => none
  | .recip _ rs1 => some rs1
  | .div _ _ rs2 => some rs2
  | .rem _ _ rs2 => some rs2
  | .eq _ _ => none

end Sys2Proof
end

