-- ==== Sys2Proof/WellFormed.lean ====
section
/-! DEFINITION. Well-formedness of a command word, field by field (30_encoding.md R56, R57, R59 to R61).
Every term of `Instr` is well formed by its types: register operands are 3-bit indices and every value names
a register (R43), data words are 64 bits. What can be ill formed is a command WORD, so the checks are on its
fields. They are written apart from the decoder, which compares masks (R63); that the two agree is an
obligation. -/

namespace Sys2Proof

/-- The fields of a command word (R56). -/
structure CmdFields where
  opcode : BitVec 5
  rd : RegIdx
  rs1 : RegIdx
  rs2 : RegIdx
  zero : BitVec 2
  deriving DecidableEq, Repr

/-- The fields at their bit positions: 15:11, 10:8, 7:5, 4:2, 1:0 (R56). -/
def CmdFields.ofWord (w : CmdWord) : CmdFields :=
  ⟨w.extractLsb' 11 5, w.extractLsb' 8 3, w.extractLsb' 5 3, w.extractLsb' 2 3, w.extractLsb' 0 2⟩

/-- Which register fields a command uses; the six formats of R57. -/
structure FieldUse where
  rd : Bool
  rs1 : Bool
  rs2 : Bool
  deriving DecidableEq, Repr

/-- The register fields each assigned opcode uses (R57, R59); none for an unassigned opcode (R60). -/
def fieldUse (opcode : BitVec 5) : Option FieldUse :=
  match opcode.toNat with
  | 0x01 | 0x02 => some ⟨false, false, false⟩
  | 0x03 | 0x04 | 0x05 => some ⟨true, false, false⟩
  | 0x06 => some ⟨false, true, false⟩
  | 0x07 | 0x09 | 0x0C => some ⟨true, true, false⟩
  | 0x08 | 0x0A | 0x0B | 0x0D | 0x0E => some ⟨true, true, true⟩
  | 0x0F => some ⟨false, true, true⟩
  | _ => none

/-- The opcode is assigned (R60). -/
def CmdFields.opcodeAssigned (x : CmdFields) : Bool := (fieldUse x.opcode).isSome

/-- Bits 1:0 are 00 (R56, R61). -/
def CmdFields.zeroClear (x : CmdFields) : Bool := x.zero == 0

/-- `rd` is 000 unless the format uses it (R61). -/
def CmdFields.rdClear (x : CmdFields) : Bool :=
  match fieldUse x.opcode with
  | some u => u.rd || x.rd == 0
  | none => true

/-- `rs1` is 000 unless the format uses it (R61). -/
def CmdFields.rs1Clear (x : CmdFields) : Bool :=
  match fieldUse x.opcode with
  | some u => u.rs1 || x.rs1 == 0
  | none => true

/-- `rs2` is 000 unless the format uses it (R61). -/
def CmdFields.rs2Clear (x : CmdFields) : Bool :=
  match fieldUse x.opcode with
  | some u => u.rs2 || x.rs2 == 0
  | none => true

/-- A legal command word, by its fields (R60, R61). -/
def CmdFields.wellFormed (x : CmdFields) : Bool :=
  x.opcodeAssigned && x.zeroClear && x.rdClear && x.rs1Clear && x.rs2Clear

end Sys2Proof
end

