-- ==== Sys2Proof/Decode.lean ====
section
/-! DEFINITION. Decoding and encoding of commands (30_encoding.md R55 to R63, opcode_table.json), and the
host's numbering of an instruction's bits (`decodeTableWord`). -/

namespace Sys2Proof

/-- The opcode field, bits 15:11 (R56). -/
def opcodeField (w : CmdWord) : BitVec 5 := w.extractLsb' 11 5

/-- The destination field, bits 10:8 (R56). -/
def rdField (w : CmdWord) : RegIdx := w.extractLsb' 8 3

/-- The first source field, bits 7:5 (R56). -/
def rs1Field (w : CmdWord) : RegIdx := w.extractLsb' 5 3

/-- The second source field, bits 4:2 (R56). -/
def rs2Field (w : CmdWord) : RegIdx := w.extractLsb' 2 3

/-- `mask` of format `D` (R57). -/
def maskD : CmdWord := 0xFFFF
/-- `mask` of format `RD` (R57). -/
def maskRD : CmdWord := 0xF8FF
/-- `mask` of format `S1` (R57). -/
def maskS1 : CmdWord := 0xFF1F
/-- `mask` of format `R2` (R57). -/
def maskR2 : CmdWord := 0xF81F
/-- `mask` of format `R3` (R57). -/
def maskR3 : CmdWord := 0xF803
/-- `mask` of format `S2` (R57). -/
def maskS2 : CmdWord := 0xFF03

/-- Step (3) of R63: the word is the row's exactly when `cmd & mask = match`; then it is the instruction `i`. -/
def underMask (w mask matchWord : CmdWord) (i : Instr) : Except Illegal Instr :=
  if w &&& mask = matchWord then .ok i else .error .reservedBits

/-- Decoding (R63), total: every pair is an instruction or is rejected by name. The `match` words are those of
R59. The data word is an operand of formats `D` and `RD` only (R58). -/
def decode (c : Command) : Except Illegal Instr :=
  let w := c.cmd
  match (opcodeField w).toNat with
  | 0x01 => underMask w maskD 0x0800 (.bro c.data)
  | 0x02 => underMask w maskD 0x1000 (.rbp c.data)
  | 0x03 => underMask w maskRD 0x1800 (.new (rdField w) c.data)
  | 0x04 => underMask w maskRD 0x2000 (.fred (rdField w) c.data)
  | 0x05 => underMask w maskRD 0x2800 (.funb (rdField w) c.data)
  | 0x06 => underMask w maskS1 0x3000 (.val (rs1Field w))
  | 0x07 => underMask w maskR2 0x3800 (.mov (rdField w) (rs1Field w))
  | 0x08 => underMask w maskR3 0x4000 (.add (rdField w) (rs1Field w) (rs2Field w))
  | 0x09 => underMask w maskR2 0x4800 (.neg (rdField w) (rs1Field w))
  | 0x0A => underMask w maskR3 0x5000 (.sub (rdField w) (rs1Field w) (rs2Field w))
  | 0x0B => underMask w maskR3 0x5800 (.mul (rdField w) (rs1Field w) (rs2Field w))
  | 0x0C => underMask w maskR2 0x6000 (.recip (rdField w) (rs1Field w))
  | 0x0D => underMask w maskR3 0x6800 (.div (rdField w) (rs1Field w) (rs2Field w))
  | 0x0E => underMask w maskR3 0x7000 (.rem (rdField w) (rs1Field w) (rs2Field w))
  | 0x0F => underMask w maskS2 0x7800 (.eq (rs1Field w) (rs2Field w))
  | _ => .error .unassignedOpcode

/-- The full word of a command: `match | rd << 8 | rs1 << 5 | rs2 << 2`, unused fields 0 (R59). -/
def commandWord (matchWord : CmdWord) (rd rs1 rs2 : RegIdx) : CmdWord :=
  matchWord ||| (rd.setWidth 16 <<< 8) ||| (rs1.setWidth 16 <<< 5) ||| (rs2.setWidth 16 <<< 2)

/-- The command word of an instruction (R59, R70). -/
def encodeWord : Instr → CmdWord
  | .bro _ => commandWord 0x0800 0 0 0
  | .rbp _ => commandWord 0x1000 0 0 0
  | .new rd _ => commandWord 0x1800 rd 0 0
  | .fred rd _ => commandWord 0x2000 rd 0 0
  | .funb rd _ => commandWord 0x2800 rd 0 0
  | .val rs1 => commandWord 0x3000 0 rs1 0
  | .mov rd rs1 => commandWord 0x3800 rd rs1 0
  | .add rd rs1 rs2 => commandWord 0x4000 rd rs1 rs2
  | .neg rd rs1 => commandWord 0x4800 rd rs1 0
  | .sub rd rs1 rs2 => commandWord 0x5000 rd rs1 rs2
  | .mul rd rs1 rs2 => commandWord 0x5800 rd rs1 rs2
  | .recip rd rs1 => commandWord 0x6000 rd rs1 0
  | .div rd rs1 rs2 => commandWord 0x6800 rd rs1 rs2
  | .rem rd rs1 rs2 => commandWord 0x7000 rd rs1 rs2
  | .eq rs1 rs2 => commandWord 0x7800 0 rs1 rs2

/-- The data word that accompanies an instruction; 0 for a command that ignores it (R70). -/
def encodeData : Instr → Word
  | .bro d => d
  | .rbp d => d
  | .new _ d => d
  | .fred _ d => d
  | .funb _ d => d
  | .val _ => 0
  | .mov _ _ => 0
  | .add _ _ _ => 0
  | .neg _ _ => 0
  | .sub _ _ _ => 0
  | .mul _ _ _ => 0
  | .recip _ _ => 0
  | .div _ _ _ => 0
  | .rem _ _ _ => 0
  | .eq _ _ => 0

/-- The command that stands for an instruction. -/
def encode (i : Instr) : Command := ⟨encodeWord i, encodeData i⟩

/-- A row of the opcode map: the bits a decoder compares and their values (R57, R59). -/
structure OpcodeRow where
  mnemonic : String
  mask : CmdWord
  matchWord : CmdWord
  deriving DecidableEq, Repr

/-- The opcode map of R59, in its order. -/
def opcodeTable : List OpcodeRow :=
  [⟨"BRO", 0xFFFF, 0x0800⟩, ⟨"RBP", 0xFFFF, 0x1000⟩, ⟨"NEW", 0xF8FF, 0x1800⟩, ⟨"FRED", 0xF8FF, 0x2000⟩,
   ⟨"FUNB", 0xF8FF, 0x2800⟩, ⟨"VAL", 0xFF1F, 0x3000⟩, ⟨"MOV", 0xF81F, 0x3800⟩, ⟨"ADD", 0xF803, 0x4000⟩] ++
  [⟨"NEG", 0xF81F, 0x4800⟩, ⟨"SUB", 0xF803, 0x5000⟩, ⟨"MUL", 0xF803, 0x5800⟩, ⟨"RECIP", 0xF81F, 0x6000⟩,
   ⟨"DIV", 0xF803, 0x6800⟩, ⟨"REM", 0xF803, 0x7000⟩, ⟨"EQ", 0xFF03, 0x7800⟩]

/-- The command whose bits are `w`: bits 15:0 are the command word, the bits from 16 on are the data word
(DESIGN CHOICE, log entry 9). Bits at and above `nbits` are 0. -/
def commandOfBits (nbits w : Nat) : Command :=
  let v := w % 2 ^ nbits
  ⟨BitVec.ofNat 16 v, BitVec.ofNat 64 (v >>> 16)⟩

/-- The instruction the decoder reads from the bits `w` of a row `nbits` wide. -/
def decodeTableWord (nbits w : Nat) : Option Instr :=
  match decode (commandOfBits nbits w) with
  | .ok i => some i
  | .error _ => none

end Sys2Proof
end

