-- ==== Sys2Proof/Config.lean ====
section
/-! DEFINITION. The synthesis-time parameters `N`, `B` and the constants derived from them
(00_scope.md R6 to R10, R13). They are configuration: the core never writes them. -/

namespace Sys2Proof

/-- The modulus `P = 2^N − 2^B − 1` (R8). -/
def Config.modulus (N B : Nat) : Nat := 2 ^ N - 2 ^ B - 1

/-- `FULL_MASK = 2^N − 1` (R8). -/
def Config.fullMask (N : Nat) : Nat := 2 ^ N - 1

/-- `MAX_EXCESS = 2^(64−N) − 1` (R8). -/
def Config.maxExcess (N : Nat) : Nat := 2 ^ (64 - N) - 1

/-- `FE_MAX = FULL_MASK + (MAX_EXCESS << B) + MAX_EXCESS` (R8). -/
def Config.feMax (N B : Nat) : Nat :=
  Config.fullMask N + (Config.maxExcess N <<< B) + Config.maxExcess N

/-- V1 to V4 and V6 of R9: everything of `Valid(N, B)` but primality. They are what every rule but the inverse
property needs, so the arithmetic is written over pairs that meet them (R10). -/
abbrev Config.Buildable (N B : Nat) : Prop :=
  N % 2 = 0 ∧ (34 ≤ N ∧ N ≤ 62) ∧ (0 < B ∧ B < N / 2) ∧ B ≠ 2 ∧
    Config.feMax N B ≤ 2 * Config.modulus N B

/-- `Valid(N, B)` (R9): V1 to V6, with V5, `P` prime. -/
def Config.Valid (N B : Nat) : Prop :=
  Config.Buildable N B ∧ (Config.modulus N B).Prime

/-- The parameters of the arithmetic: pairs that meet V1 to V4 and V6, over which the rules hold as ring arithmetic
modulo `P`, composite or not (R10, R131). A core has more: see `CoreParams`. -/
structure Params where
  /-- The number of bits used per element (R6). -/
  N : Nat
  /-- The cleared bit offset (R7). -/
  B : Nat
  ok : Config.Buildable N B
  deriving DecidableEq, Repr

/-- The modulus of a core's field (R8). -/
def Params.P (p : Params) : Nat := Config.modulus p.N p.B

/-- `FULL_MASK` of a core (R8). -/
def Params.fullMask (p : Params) : Nat := Config.fullMask p.N

/-- `MAX_EXCESS` of a core (R8). -/
def Params.maxExcess (p : Params) : Nat := Config.maxExcess p.N

/-- `FE_MAX` of a core: the largest once-reduced content (R8). -/
def Params.feMax (p : Params) : Nat := Config.feMax p.N p.B

/-- V5 of R9: the premise of the inverse property (R10, R137). -/
def Params.PrimeModulus (p : Params) : Prop := p.P.Prime

/-- The parameters a core was built with: `Valid(N, B)` holds of them. A pair that is not valid cannot be written
here, so no state of the machine has it: the model refuses it (R9, U4; log entry 2). -/
structure CoreParams extends Params where
  valid : Config.Valid toParams.N toParams.B
  deriving DecidableEq, Repr

/-- A core's modulus is prime (V5). -/
theorem CoreParams.primeModulus (c : CoreParams) : c.toParams.PrimeModulus := c.valid.2

/-- A core's parameters are its `N` and `B`. -/
theorem CoreParams.ext_params {c d : CoreParams} (h : c.toParams = d.toParams) : c = d := by
  cases c; cases d; cases h; rfl

/-- The core of a valid pair. -/
def Config.coreOf (N B : Nat) (h : Config.Valid N B) : CoreParams := ⟨⟨N, B, h.1⟩, h⟩

/-- The constants of the reference instantiation `N = 62, B = 30` (R13). -/
def Config.reference : Params := ⟨62, 30, by decide⟩

/-- The constants of the second instantiation `N = 36, B = 4` (R13). -/
def Config.second : Params := ⟨36, 4, by decide⟩

/-! The two pairs are valid. Primality is shown by Lucas' test, with the factors of `m − 1`. -/

/-- `b ^ e % m` by squaring, for `e < 2 ^ k`. -/
def powMod (m : Nat) : Nat → Nat → Nat → Nat
  | 0, _, _ => 1 % m
  | k + 1, b, e =>
    if e % 2 = 1 then b * powMod m k (b * b % m) (e / 2) % m else powMod m k (b * b % m) (e / 2)

theorem powMod_eq (m : Nat) : ∀ k b e : Nat, e < 2 ^ k → powMod m k b e = b ^ e % m := by
  intro k
  induction k with
  | zero =>
    intro b e he
    obtain rfl : e = 0 := by simpa using he
    simp [powMod]
  | succ k ih =>
    intro b e he
    have half : (b * b % m) ^ (e / 2) % m = b ^ (2 * (e / 2)) % m := by
      rw [← Nat.pow_mod, pow_mul, pow_two]
    rw [powMod, ih _ _ (by rw [pow_succ] at he; omega)]
    split
    · rw [half, Nat.mul_mod_mod, ← pow_succ']
      congr 2; omega
    · rw [half]; congr 2; omega

/-- Lucas' test: `b` has order `m − 1` modulo `m`, so `m` is prime; `fs` are the prime factors of `m − 1`. -/
theorem prime_of_lucas (m b : Nat) (fs : List Nat) (hfs : ∀ q ∈ fs, q.Prime) (hm : fs.prod = m - 1)
    (h1 : 1 < m) (h64 : m < 2 ^ 64) (hb : powMod m 64 b (m - 1) = 1)
    (hq : ∀ q ∈ fs, powMod m 64 b ((m - 1) / q) ≠ 1) : m.Prime := by
  have red : ∀ n < 2 ^ 64, ((b : ZMod m) ^ n = 1 ↔ powMod m 64 b n = 1) := by
    intro n hn
    have h := ZMod.natCast_eq_natCast_iff' (b ^ n) 1 m
    rw [Nat.cast_pow, Nat.cast_one, Nat.mod_eq_of_lt h1] at h
    rw [h, powMod_eq m 64 b n hn]
  refine lucas_primality m (b : ZMod m) ((red _ (by omega)).2 hb) fun q hp hd he => ?_
  rw [← hm] at hd
  obtain ⟨r, hr, hqr⟩ := (hp.prime.dvd_prod_iff).1 hd
  obtain rfl := (Nat.prime_dvd_prime_iff_eq hp (hfs r hr)).1 hqr
  exact hq q hr ((red _ (lt_of_le_of_lt (Nat.div_le_self _ _) (by omega))).1 he)

/-- `P` of the second instantiation is prime. -/
theorem second_prime : Nat.Prime 68719476719 := by
  refine prime_of_lucas _ 11 [2, 41, 263, 3186473] ?_ (by decide) (by decide) (by decide)
    (by decide +kernel) (by decide +kernel)
  simp only [List.forall_mem_cons, List.not_mem_nil, false_implies, implies_true, and_true]
  norm_num

/-- The largest prime factor of `P − 1`, reference instantiation, and the largest of that one less 1. -/
theorem reference_factor_prime : Nat.Prime 79511827885407691 := by
  have inner : Nat.Prime 4294967311 := by
    refine prime_of_lucas _ 3 [2, 3, 3, 5, 131, 364289] ?_ (by decide) (by decide) (by decide)
      (by decide +kernel) (by decide +kernel)
    simp only [List.forall_mem_cons, List.not_mem_nil, false_implies, implies_true, and_true]
    norm_num
  refine prime_of_lucas _ 3 [2, 3, 5, 43, 113, 127, 4294967311] ?_ (by decide) (by decide) (by decide)
    (by decide +kernel) (by decide +kernel)
  simp only [List.forall_mem_cons, List.not_mem_nil, false_implies, implies_true, and_true]
  exact ⟨by norm_num, by norm_num, by norm_num, by norm_num, by norm_num, by norm_num, inner⟩

/-- `P` of the reference instantiation is prime. -/
theorem reference_prime : Nat.Prime 4611686017353646079 := by
  refine prime_of_lucas _ 7 [2, 29, 79511827885407691] ?_ (by decide) (by decide) (by decide)
    (by decide +kernel) (by decide +kernel)
  simp only [List.forall_mem_cons, List.not_mem_nil, false_implies, implies_true, and_true]
  exact ⟨by norm_num, by norm_num, reference_factor_prime⟩

/-- A core of the reference instantiation (R13). -/
def Config.referenceCore : CoreParams := ⟨Config.reference, by decide, reference_prime⟩

/-- A core of the second instantiation (R13). -/
def Config.secondCore : CoreParams := ⟨Config.second, by decide, second_prime⟩

end Sys2Proof
end

