-- ==== Sys2Proof/Machine/State.lean ====
section
/-! DEFINITION. The state of the core (10_state.md R20 to R34), the host's pending events, the ways a step can
stop, and the state after reset. -/

namespace Sys2Proof.Machine

/-- Why the core faulted (R28, R165): the two faults a command can raise. Taking one is a next state (R170),
not a stop of the machine. -/
inductive FaultCause where
  /-- The command word is not a legal encoding (R167). -/
  | illegalCommand
  /-- Inversion of, or division by, a zero element (R166). -/
  | zeroDivisor
  deriving DecidableEq, Repr

/-- What the host does at the command port between two steps: it offers a command, or asserts reset and
releases it (R32, R190). -/
inductive HostEvent where
  | command (c : Command)
  | reset
  deriving DecidableEq, Repr

/-- Why no step exists. -/
inductive Fault where
  /-- `STATUS.FAULT = 1` and the host does not assert reset next: the core accepts no command (R171), the
  spec's `stuck` (93_implementation_defined.md U12). Raised by `step` only. Safe: nothing happens in the
  hardware either. -/
  | halted
  deriving DecidableEq, Repr

/-- Why an instruction has no meaning. -/
inductive Refusal where
  /-- An instruction without a meaning, by its mnemonic; no arm of `exec` answers so. Safe. -/
  | notModelled (mnemonic : String)
  deriving DecidableEq, Repr

/-- The state. `f`, `dout`, `status` and `fcmd` are all the architectural state the spec gives the core (R19);
`build` and `inputs` are the model's own fields (log entries 1 and 3). -/
structure State where
  /-- The synthesis constants of the core, a valid pair (R9); no step changes them. -/
  build : CoreParams
  /-- The registers `f0` to `f7` (R20). -/
  f : Vector Word 8
  /-- `DOUT` (R27). -/
  dout : Word
  /-- `STATUS`: bit 0 `OK`, bit 1 `EQ`, bit 2 `FAULT`, bits 4:3 `CAUSE`, bits 7:5 zero (R28). -/
  status : BitVec 8
  /-- `FCMD` (R29). -/
  fcmd : CmdWord
  /-- What the host does next, oldest first. -/
  inputs : List HostEvent
  deriving DecidableEq, Repr

/-- The parameters the arithmetic of a core uses. -/
abbrev State.params (s : State) : Params := s.build.toParams

/-- The values the host reads at the output ports (R32). -/
structure Outputs where
  dout : Word
  status : BitVec 8
  fcmd : CmdWord
  /-- The `fault` line, a level (R176). -/
  fault : Bool
  deriving DecidableEq, Repr

/-- What an instruction's meaning or a step answers. -/
abbrev Result := Host.Outcome State Fault Refusal

/-- The state after reset of a core built with the parameters `c` (R34, R190): all zero. -/
def State.resetAt (c : CoreParams) : State :=
  { build := c, f := Vector.replicate 8 0, dout := 0, status := 0, fcmd := 0, inputs := [] }

/-- The state after reset of the reference instantiation (R13, R34; log entry 1). -/
def State.reset : State := State.resetAt Config.referenceCore

end Sys2Proof.Machine
end

