-- ==== Sys2Proof/Machine/Flags.lean ====
section
/-! DEFINITION. The fields of `STATUS` (10_state.md R26, R28) and the codes of the two faults. -/

namespace Sys2Proof.Machine

/-- `OK`, bit 0 (R28). -/
def statusOk (st : BitVec 8) : Bool := st.getLsbD 0

/-- `EQ`, bit 1 (R28). -/
def statusEq (st : BitVec 8) : Bool := st.getLsbD 1

/-- `FAULT`, bit 2 (R28). -/
def statusFault (st : BitVec 8) : Bool := st.getLsbD 2

/-- `CAUSE`, bits 4:3 (R28). -/
def statusCause (st : BitVec 8) : BitVec 2 := st.extractLsb' 3 2

/-- Bits 7:5, always read 0 (R28). -/
def statusZero (st : BitVec 8) : BitVec 3 := st.extractLsb' 5 3

/-- `OK <- b`, every other bit kept. -/
def statusSetOk (b : Bool) (st : BitVec 8) : BitVec 8 :=
  (st &&& 0xFE) ||| (if b then 0x01 else 0x00)

/-- `EQ <- b`, every other bit kept. -/
def statusSetEq (b : Bool) (st : BitVec 8) : BitVec 8 :=
  (st &&& 0xFD) ||| (if b then 0x02 else 0x00)

/-- The cause codes: 1 `ILLEGAL_COMMAND`, 2 `ZERO_DIVISOR` (R28, R165). -/
def FaultCause.code : FaultCause → BitVec 2
  | .illegalCommand => 1
  | .zeroDivisor => 2

/-- `FAULT <- 1` and `CAUSE <- code`, every other bit kept (R170). -/
def statusSetFault (c : FaultCause) (st : BitVec 8) : BitVec 8 :=
  (st &&& 0xE3) ||| 0x04 ||| (c.code.setWidth 8 <<< 3)

/-- The flag `OK` of a state. -/
def State.okFlag (s : State) : Bool := statusOk s.status

/-- The flag `EQ` of a state. -/
def State.eqFlag (s : State) : Bool := statusEq s.status

/-- `STATUS.FAULT` of a state: the core is halted (R171). -/
def State.faultFlag (s : State) : Bool := statusFault s.status

/-- `STATUS.CAUSE` of a state. -/
def State.cause (s : State) : BitVec 2 := statusCause s.status

/-- `OK <- b`. -/
def State.setOk (b : Bool) (s : State) : State := { s with status := statusSetOk b s.status }

/-- `EQ <- b`. -/
def State.setEq (b : Bool) (s : State) : State := { s with status := statusSetEq b s.status }

/-- The output ports (R32); the `fault` line equals `STATUS.FAULT` (R176). -/
def State.outputs (s : State) : Outputs :=
  ⟨s.dout, s.status, s.fcmd, s.faultFlag⟩

end Sys2Proof.Machine
end

