-- ==== Sys2Proof/Machine/Operands.lean ====
section
/-! DEFINITION. The operand forms: a register named by a 3-bit index (20_memory.md R51, 30_encoding.md R58),
and the data word, whole or masked to `N` bits (R98). No register is hard-wired (10_state.md R20). -/

namespace Sys2Proof.Machine

/-- `f[r]`. -/
def State.reg (s : State) (r : RegIdx) : Word := s.f[r.toNat]'r.isLt

/-- `f[r] <- v`. -/
def State.setReg (r : RegIdx) (v : Word) (s : State) : State :=
  { s with f := s.f.set r.toNat v r.isLt }

/-- `DOUT <- v`. -/
def State.setDout (v : Word) (s : State) : State := { s with dout := v }

/-- `data & FULL_MASK`, that is `data[N-1:0]` (R98). -/
def maskedData (p : Params) (data : Word) : Word := data &&& BitVec.ofNat 64 p.fullMask

end Sys2Proof.Machine
end

