-- ==== Sys2Proof/Machine/Ops.lean ====
section
/-! DEFINITION. The shared operations of the five units (40_reduction.md, 42_addsub.md, 43_multiply.md,
44_exp_inverse.md), taking a fault (60_exceptions.md R170) and reset (70_reset_and_hazards.md R190). -/

namespace Sys2Proof.Machine

/-- The split and sum of `bit_reduce_once` on an exact integer (R80, R82):
`low = v & FULL_MASK`, `high = v >> N`, `low + high + (high << B)`. -/
def foldOnce (p : Params) (v : Nat) : Nat :=
  let low := v &&& p.fullMask
  let high := v >>> p.N
  low + high + (high <<< p.B)

/-- `bro(v)` on a 64-bit word (R80). Its properties R81 (a) to (e) follow from this body: Laws/Reduce.lean. -/
def bro (p : Params) (v : Word) : Word := BitVec.ofNat 64 (foldOnce p v.toNat)

/-- `bro128(w)`, the same on a 128-bit word (R82). -/
def bro128 (p : Params) (w : Wide) : Wide := BitVec.ofNat 128 (foldOnce p w.toNat)

/-- `asr63(d)`: every bit equals `d[63]` (R14). -/
def asr63 (d : Word) : Word := d.sshiftRight 63

/-- `rbp(v)`, the masked conditional subtraction of `P` (R84). The subtraction wraps modulo `2^64`. -/
def rbp (p : Params) (v : Word) : Word :=
  let d := v - BitVec.ofNat 64 p.P
  let m := asr63 d
  (v &&& m) ||| (d &&& ~~~m)

/-- `value(a) = rbp(bro(a))` (R95). -/
def value (p : Params) (a : Word) : Word := rbp p (bro p a)

/-- `fadd(a, b) = bro(a + b)` (R110). -/
def fadd (p : Params) (a b : Word) : Word := bro p (a + b)

/-- `fneg(a) = bro(2·P − a)` (R111). -/
def fneg (p : Params) (a : Word) : Word := bro p (BitVec.ofNat 64 (2 * p.P) - a)

/-- `fsub(a, b) = fadd(a, fneg(b))` (R112). -/
def fsub (p : Params) (a b : Word) : Word := fadd p a (fneg p b)

/-- The 128-bit product of two 64-bit words (R120). -/
def wideProduct (a b : Word) : Wide := a.setWidth 128 * b.setWidth 128

/-- `fmul(a, b)`: the wide product, two wide passes, the low 64 bits, one 64-bit pass (R120). -/
def fmul (p : Params) (a b : Word) : Word :=
  let w1 := bro128 p (wideProduct a b)
  let w2 := bro128 p w1
  bro p (w2.setWidth 64)

/-- The exponent `E = P − 2` (R130), a constant of the configuration. -/
def exponent (p : Params) : Nat := p.P - 2

/-- `E[i]` (R130). -/
def exponentBit (p : Params) (i : Nat) : Bool := (exponent p).testBit i

/-- One operation of the chain (R131): multiply the accumulator by the running base, or square the base. -/
inductive ChainOp where
  | multiply
  | square
  deriving DecidableEq, Repr

/-- The operations of step `i` (R131): the base is squared at every step, and the accumulator is multiplied,
before that, exactly when `E[i] = 1`. -/
def chainStepOps (p : Params) (i : Nat) : List ChainOp :=
  if exponentBit p i then [.multiply, .square] else [.square]

/-- The operations of the `k` steps from `i` on. -/
def chainOpsFrom (p : Params) : Nat → Nat → List ChainOp
  | 0, _ => []
  | k + 1, i => chainStepOps p i ++ chainOpsFrom p k (i + 1)

/-- The whole chain, steps `0` to `N − 1` (R131, R132). It depends on `N` and `B` only. -/
def chainOps (p : Params) : List ChainOp := chainOpsFrom p p.N 0

/-- One operation on the scratch pair (running base `x`, accumulator `y`). -/
def chainApply (p : Params) (xy : Word × Word) : ChainOp → Word × Word
  | .multiply => (xy.1, fmul p xy.2 xy.1)
  | .square => (fmul p xy.1 xy.1, xy.2)

/-- `fpow_pm2(a)`: the chain run from base `a` and accumulator 1 (R131). -/
def fpowPm2 (p : Params) (a : Word) : Word :=
  ((chainOps p).foldl (chainApply p) (a, 1)).2

/-- `iszero(a)`: the residue is 0 (R136). -/
def isZero (p : Params) (a : Word) : Bool := value p a == 0

/-- `a / b` of the source, without its zero test: `fmul(a, fpow_pm2(b))` (R134, R135). -/
def quotient (p : Params) (a b : Word) : Word := fmul p a (fpowPm2 p b)

/-- Fault entry, `raise <Fault>(cmd)` (R170): `FAULT`, `CAUSE` and `FCMD`, and nothing else. -/
def raiseFault (c : FaultCause) (cmd : CmdWord) (s : State) : State :=
  { s with status := statusSetFault c s.status, fcmd := cmd }

/-- Reset (R190): every piece of the core's state at its reset value, the parameters unchanged (R34). It is the
only return from a fault (R171, R174). The host's further events, `rest`, remain. -/
def applyReset (rest : List HostEvent) (s : State) : State :=
  { State.resetAt s.build with inputs := rest }

/-- The shared body of `FRED` and `FUNB` (R97, R98): a word below `P` is stored and `OK` set, any other word
clears `OK` and leaves the register. -/
def storeChecked (rd : RegIdx) (m : Word) (s : State) : State :=
  if m.toNat < s.params.P then (s.setReg rd m).setOk true else s.setOk false

end Sys2Proof.Machine
end

