-- ==== Sys2Proof/Machine/AddSub.lean ====
section
/-! DEFINITION. The adder/subtractor (42_addsub.md R113 to R115). Sources are read before the destination is
written (70_reset_and_hazards.md R198). -/

namespace Sys2Proof.Machine

/-- `ADD rd, rs1, rs2` (R113). -/
def execAdd (rd rs1 rs2 : RegIdx) (s : State) : Result :=
  .next (s.setReg rd (fadd s.params (s.reg rs1) (s.reg rs2)))

/-- `NEG rd, rs1` (R114). -/
def execNeg (rd rs1 : RegIdx) (s : State) : Result :=
  .next (s.setReg rd (fneg s.params (s.reg rs1)))

/-- `SUB rd, rs1, rs2` (R115). -/
def execSub (rd rs1 rs2 : RegIdx) (s : State) : Result :=
  .next (s.setReg rd (fsub s.params (s.reg rs1) (s.reg rs2)))

end Sys2Proof.Machine
end

