-- ==== Sys2Proof/Machine/Construct.lean ====
section
/-! DEFINITION. Construction, canonicalisation, copy, equality (41_construct_canon.md R96 to R101). -/

namespace Sys2Proof.Machine

/-- `NEW rd`: `f[rd] <- bro(data)` (R96). -/
def execNew (rd : RegIdx) (data : Word) (s : State) : Result :=
  .next (s.setReg rd (bro s.params data))

/-- `FRED rd`: the data word, checked (R97). -/
def execFred (rd : RegIdx) (data : Word) (s : State) : Result := .next (storeChecked rd data s)

/-- `FUNB rd`: the data word masked to `N` bits, checked (R98). -/
def execFunb (rd : RegIdx) (data : Word) (s : State) : Result :=
  .next (storeChecked rd (maskedData s.params data) s)

/-- `VAL rs1`: `DOUT <- value(f[rs1])`; the register keeps its content (R99). -/
def execVal (rs1 : RegIdx) (s : State) : Result :=
  .next (s.setDout (value s.params (s.reg rs1)))

/-- `MOV rd, rs1`: the 64-bit content, not re-reduced (R100). -/
def execMov (rd rs1 : RegIdx) (s : State) : Result := .next (s.setReg rd (s.reg rs1))

/-- `EQ rs1, rs2`: the flag `EQ` is 1 exactly when the canonical values agree (R101). -/
def execEq (rs1 rs2 : RegIdx) (s : State) : Result :=
  .next (s.setEq (value s.params (s.reg rs1) == value s.params (s.reg rs2)))

end Sys2Proof.Machine
end

