-- ==== Sys2Proof/Machine/Inverse.lean ====
section
/-! DEFINITION. The inverter and what is built on it (44_exp_inverse.md R133 to R135). The zero test comes
before any write, and a zero divisor enters the fault with the command's own word, which is its one encoding
(30_encoding.md R61; log entry 11). -/

namespace Sys2Proof.Machine

/-- The shared shape of the three commands: fault on a zero element `b`, else `f[rd] <- v` (R166). -/
def unlessZero (b : Word) (cmd : CmdWord) (rd : RegIdx) (v : Word) (s : State) : Result :=
  if isZero s.params b then .next (raiseFault .zeroDivisor cmd s) else .next (s.setReg rd v)

/-- `RECIP rd, rs1` (R133). -/
def execRecip (rd rs1 : RegIdx) (s : State) : Result :=
  unlessZero (s.reg rs1) (encodeWord (.recip rd rs1)) rd (fpowPm2 s.params (s.reg rs1)) s

/-- `DIV rd, rs1, rs2` (R134). -/
def execDiv (rd rs1 rs2 : RegIdx) (s : State) : Result :=
  unlessZero (s.reg rs2) (encodeWord (.div rd rs1 rs2)) rd
    (quotient s.params (s.reg rs1) (s.reg rs2)) s

/-- `REM rd, rs1, rs2`: the source's `a − (a / b)`, which is not a remainder (R135). -/
def execRem (rd rs1 rs2 : RegIdx) (s : State) : Result :=
  unlessZero (s.reg rs2) (encodeWord (.rem rd rs1 rs2)) rd
    (fsub s.params (s.reg rs1) (quotient s.params (s.reg rs1) (s.reg rs2))) s

end Sys2Proof.Machine
end

