-- ==== Sys2Proof/Machine/Multiply.lean ====
section
/-! DEFINITION. The multiplier with reduction (43_multiply.md R121). -/

namespace Sys2Proof.Machine

/-- `MUL rd, rs1, rs2` (R121). -/
def execMul (rd rs1 rs2 : RegIdx) (s : State) : Result :=
  .next (s.setReg rd (fmul s.params (s.reg rs1) (s.reg rs2)))

end Sys2Proof.Machine
end

