-- ==== Sys2Proof/Machine/Reduction.lean ====
section
/-! DEFINITION. The commands of the reduction engine (40_reduction.md R86, R87). -/

namespace Sys2Proof.Machine

/-- `BRO`: `DOUT <- bro(data)` (R86). -/
def execBro (data : Word) (s : State) : Result := .next (s.setDout (bro s.params data))

/-- `RBP`: `DOUT <- rbp(data)`, for every data word (R87). -/
def execRbp (data : Word) (s : State) : Result := .next (s.setDout (rbp s.params data))

end Sys2Proof.Machine
end

