-- ==== Sys2Proof/Machine/Dispatch.lean ====
section
/-! DEFINITION. One arm per command of the opcode map (30_encoding.md R59). -/

namespace Sys2Proof.Machine

/-- The effect of an accepted command. -/
def exec (i : Instr) (s : State) : Host.Outcome State Fault Refusal :=
  match i with
  | .bro data => Sys2Proof.Machine.execBro data s
  | .rbp data => Sys2Proof.Machine.execRbp data s
  | .new rd data => Sys2Proof.Machine.execNew rd data s
  | .fred rd data => Sys2Proof.Machine.execFred rd data s
  | .funb rd data => Sys2Proof.Machine.execFunb rd data s
  | .val rs1 => Sys2Proof.Machine.execVal rs1 s
  | .mov rd rs1 => Sys2Proof.Machine.execMov rd rs1 s
  | .add rd rs1 rs2 => Sys2Proof.Machine.execAdd rd rs1 rs2 s
  | .neg rd rs1 => Sys2Proof.Machine.execNeg rd rs1 s
  | .sub rd rs1 rs2 => Sys2Proof.Machine.execSub rd rs1 rs2 s
  | .mul rd rs1 rs2 => Sys2Proof.Machine.execMul rd rs1 rs2 s
  | .recip rd rs1 => Sys2Proof.Machine.execRecip rd rs1 s
  | .div rd rs1 rs2 => Sys2Proof.Machine.execDiv rd rs1 rs2 s
  | .rem rd rs1 rs2 => Sys2Proof.Machine.execRem rd rs1 rs2 s
  | .eq rs1 rs2 => Sys2Proof.Machine.execEq rs1 rs2 s

end Sys2Proof.Machine
end

