-- ==== Sys2Proof/Machine/Port.lean ====
section
/-! DEFINITION. The command port (10_state.md R32): what one event of the host does to the core. Acceptance,
execution and completion of a command are one step (70_reset_and_hazards.md R196). -/

namespace Sys2Proof.Machine

/-- An accepted command: a legal word has its effect, any other word raises `ILLEGAL_COMMAND`, decided before
any register is read (60_exceptions.md R167, R201). -/
def runCommand (c : Command) (s : State) : Result :=
  match decode c with
  | .ok i => exec i s
  | .error _ => .next (raiseFault .illegalCommand c.cmd s)

/-- The host does nothing that the core can take: a halted core is stuck (R171, U12), a running one waits
(R190) and keeps its state (log entry 4). -/
def waitOrStuck (s : State) : Result :=
  if s.faultFlag then .fault .halted else .next s

/-- The host offers `c`: a halted core never accepts it (R171), a running one takes it off the port and runs
it. -/
def offerCommand (c : Command) (rest : List HostEvent) (s : State) : Result :=
  if s.faultFlag then .fault .halted else runCommand c { s with inputs := rest }

/-- The next event of the host. Reset acts in every state, the halted state too (R171, R190). -/
def stepPort (s : State) : Result :=
  match s.inputs with
  | [] => waitOrStuck s
  | .reset :: rest => .next (applyReset rest s)
  | .command c :: rest => offerCommand c rest s

/-- `s` with the command `c` offered next. -/
def offerNext (c : Command) (s : State) : State := { s with inputs := .command c :: s.inputs }

/-- `s` with reset asserted next. -/
def resetNext (s : State) : State := { s with inputs := .reset :: s.inputs }

end Sys2Proof.Machine
end

