-- ==== Sys2Proof/Machine/Step.lean ====
section
/-! DEFINITION. One step of the machine, and how the host's check presents one instruction to it. -/

namespace Sys2Proof.Machine

/-- One step: the next event of the host (R196, R190). -/
def step (s : State) : Host.Outcome State Fault Refusal := stepPort s

/-- `s` with the command of the bits `w` offered next: the core fetches nothing, it runs what the host offers
(R25, R49; log entries 3 and 9). -/
def State.withFetchWord (s : State) (nbits w : Nat) : State := offerNext (commandOfBits nbits w) s

end Sys2Proof.Machine
end

