-- ==== Sys2Proof/Machine/Assembler.lean ====
section
/-! DEFINITION. The assembler syntax of one line (30_encoding.md R70), the one-command pseudo-instructions (R71)
and the lazy aliases (R72), over lists of characters. Blanks, letter case and the `.word` line are settled in
log entry 15. -/

namespace Sys2Proof.Machine

/-- A decoded operand: a register `f0` to `f7`, or a data word written after `#`. -/
inductive AsmOperand where
  | reg (r : RegIdx)
  | data (d : Word)
  deriving DecidableEq, Repr

/-- What a line stands for. -/
inductive AsmLine where
  /-- Only blanks and a comment. -/
  | blank
  | command (c : Command)
  /-- Not a line of the syntax. -/
  | malformed
  deriving DecidableEq, Repr

/-- The value of a hexadecimal digit. -/
def asmDigit (c : Char) : Option Nat :=
  if '0' ≤ c ∧ c ≤ '9' then some (c.toNat - 48)
  else if 'a' ≤ c ∧ c ≤ 'f' then some (c.toNat - 87)
  else if 'A' ≤ c ∧ c ≤ 'F' then some (c.toNat - 55)
  else none

/-- Digits in a base, most significant first, after the value `acc`. -/
def asmDigits (base : Nat) (acc : Nat) : List Char → Option Nat
  | [] => some acc
  | c :: cs =>
    match asmDigit c with
    | some d => if d < base then asmDigits base (acc * base + d) cs else none
    | none => none

/-- A decimal integer, at least one digit. -/
def asmDecimal : List Char → Option Nat
  | [] => none
  | cs => asmDigits 10 0 cs

/-- A decimal or `0x` hexadecimal unsigned integer (R70). -/
def asmNumber : List Char → Option Nat
  | '0' :: 'x' :: [] => none
  | '0' :: 'x' :: hs => asmDigits 16 0 hs
  | cs => asmDecimal cs

/-- Split at every occurrence of a character; there is always a first piece. -/
def asmSplit (sep : Char) : List Char → List (List Char)
  | [] => [[]]
  | c :: cs =>
    match asmSplit sep cs with
    | [] => [[c]]
    | piece :: more => if c = sep then [] :: piece :: more else (c :: piece) :: more

/-- A blank. -/
def asmBlank (c : Char) : Bool := c == ' ' || c == '\t'

/-- Without blanks at either end. -/
def asmTrim (cs : List Char) : List Char :=
  ((cs.dropWhile asmBlank).reverse.dropWhile asmBlank).reverse

/-- The names a data operand may use for the constants of R8 (R70). -/
def asmConstant (p : Params) (name : List Char) : Option Nat :=
  if name = "P".toList then some p.P
  else if name = "FULL_MASK".toList then some p.fullMask
  else if name = "FE_MAX".toList then some p.feMax
  else none

/-- A sign between the terms of a data operand. -/
def asmSign (c : Char) : Bool := c == '+' || c == '-'

/-- `+` and `-` of decimal integers after a constant's name (R70): each term is a sign and its digits, and
`fuel` bounds their number. -/
def asmTerms : Nat → Int → List Char → Option Int
  | _, acc, [] => some acc
  | 0, _, _ :: _ => none
  | fuel + 1, acc, c :: cs =>
    let digits := cs.takeWhile fun x => !asmSign x
    match asmDecimal digits with
    | some n =>
      if c = '+' then asmTerms fuel (acc + n) (cs.drop digits.length)
      else if c = '-' then asmTerms fuel (acc - n) (cs.drop digits.length)
      else none
    | none => none

/-- A data operand's value: a number, or a constant with `+` and `-` of decimal integers, below `2^64` (R70). -/
def asmData (p : Params) (cs : List Char) : Option Word :=
  let value : Option Int :=
    match asmNumber cs with
    | some n => some (n : Int)
    | none =>
      let name := cs.takeWhile fun x => !asmSign x
      match asmConstant p name with
      | some n => asmTerms cs.length (n : Int) (cs.drop name.length)
      | none => none
  match value with
  | some v => if 0 ≤ v ∧ v < 2 ^ 64 then some (BitVec.ofInt 64 v) else none
  | none => none

/-- One operand. -/
def asmOperand (p : Params) (cs : List Char) : Option AsmOperand :=
  match cs with
  | '#' :: ds => (asmData p ds).map .data
  | ['f', d] => if '0' ≤ d ∧ d ≤ '7' then some (.reg (BitVec.ofNat 3 (d.toNat - 48))) else none
  | _ => none

/-- The instruction of a mnemonic in a list of pairs. -/
def asmPick (mnemonic : List Char) (rows : List (String × Instr)) : Option Instr :=
  (rows.find? fun row => row.1.toList == mnemonic).map (·.2)

/-- The instruction of a mnemonic with its operands: the table of R70, the pseudo-instructions of R71 and the
aliases of R72. -/
def asmInstr (mnemonic : List Char) : List AsmOperand → Option Instr
  | [.data d] => asmPick mnemonic [("bro", .bro d), ("rbp", .rbp d)]
  | [.reg a, .data d] =>
    asmPick mnemonic ([("new", .new a d), ("fred", .fred a d), ("funb", .funb a d)] ++
      if d.toNat ≤ 255 then [("fromu8", .new a d)] else [])
  | [.reg a] => asmPick mnemonic [("val", .val a), ("zero", .new a 0), ("one", .new a 1)]
  | [.reg a, .reg b] =>
    asmPick mnemonic [("mov", .mov a b), ("neg", .neg a b), ("neg.l", .neg a b), ("recip", .recip a b),
      ("eq", .eq a b), ("sqr", .mul a b b)]
  | [.reg a, .reg b, .reg c] =>
    asmPick mnemonic [("add", .add a b c), ("add.l", .add a b c), ("sub", .sub a b c), ("sub.l", .sub a b c),
      ("mul", .mul a b c), ("mul.l", .mul a b c), ("div", .div a b c), ("rem", .rem a b c)]
  | _ => none

/-- A line without its comment and without blanks at either end. -/
def asmStatement (p : Params) (cs : List Char) : AsmLine :=
  let mnemonic := cs.takeWhile fun c => !asmBlank c
  let operands := (asmSplit ',' (cs.drop mnemonic.length)).map asmTrim
  if cs = [] then .blank
  else if mnemonic = ".word".toList then
    match operands with
    | [w] =>
      match asmNumber w with
      | some n => if n < 2 ^ 16 then .command ⟨BitVec.ofNat 16 n, 0⟩ else .malformed
      | none => .malformed
    | _ => .malformed
  else
    match operands.mapM (asmOperand p) with
    | some ops =>
      match asmInstr mnemonic ops with
      | some i => .command (encode i)
      | none => .malformed
    | none => .malformed

/-- One line of assembler text for a core with the parameters `p` (R70 to R72); text after `;` is a comment. -/
def assemble (p : Params) (line : List Char) : AsmLine :=
  asmStatement p (asmTrim (line.takeWhile fun c => !(c == ';')))

end Sys2Proof.Machine
end

