-- ==== Sys2Proof/Machine/HostSeq.lean ====
section
/-! DEFINITION. The host's command sequences `random`, `share`, `sharernd` (45_host_sequences.md R151 to R154).
The core holds no random source: the host's draws are a list of 64-bit words, any list (R150). The loop is the
host's: it reads `STATUS.OK` after each `FUNB` (R151; log entry 14). -/

namespace Sys2Proof.Machine

/-- How a host sequence ends on a finite list of draws. -/
inductive SeqOutcome where
  /-- Every command ran and each sampling loop ended; `rest` are the draws not used. -/
  | done (s : State) (rest : List Word)
  /-- The draws ran out before one was accepted: the loop is still running (R151, U6). -/
  | drawing (s : State)
  /-- The core took no step. -/
  | stopped (r : Fault)
  /-- The core has no meaning for a command. -/
  | refused (r : Refusal)
  deriving DecidableEq, Repr

/-- The host offers the command of `i` and the core takes one step. -/
def issue (i : Instr) (s : State) : Result := step (offerNext (encode i) s)

/-- Go on with `k` after a step. -/
def andThen (r : Result) (k : State → SeqOutcome) : SeqOutcome :=
  match r with
  | .next s => k s
  | .fault e => .stopped e
  | .refused e => .refused e

/-- `repeat w = draw(); funb fd, #w until STATUS.OK = 1` (R151): each attempt takes a fresh draw (R152). -/
def sampleLoop (fd : RegIdx) : List Word → State → SeqOutcome
  | [], s => .drawing s
  | w :: ws, s =>
    andThen (issue (.funb fd w) s) fun t => if t.okFlag then .done t ws else sampleLoop fd ws t

/-- `random fd` (R151). -/
def runRandom (fd : RegIdx) (draws : List Word) (s : State) : SeqOutcome :=
  andThen (issue (.new fd 0) s) (sampleLoop fd draws)

/-- Go on with `k` after a sampling sequence. -/
def afterSampling (o : SeqOutcome) (k : State → List Word → SeqOutcome) : SeqOutcome :=
  match o with
  | .done s rest => k s rest
  | .drawing s => .drawing s
  | .stopped e => .stopped e
  | .refused e => .refused e

/-- `share fd0, fd1, fs` (R153). The spec requires `fd0 ≠ fs` and `fd0 ≠ fd1`. -/
def runShare (fd0 fd1 fs : RegIdx) (draws : List Word) (s : State) : SeqOutcome :=
  afterSampling (runRandom fd0 draws s) fun t rest =>
    andThen (issue (.sub fd1 fs fd0) t) fun u => .done u rest

/-- `sharernd fd0, fd1` (R154). The spec requires `fd0 ≠ fd1`. -/
def runShareRandom (fd0 fd1 : RegIdx) (draws : List Word) (s : State) : SeqOutcome :=
  afterSampling (runRandom fd0 draws s) fun t rest => runRandom fd1 rest t

end Sys2Proof.Machine
end

