-- ==== Sys2Proof/Safety.lean ====
section
/-! DEFINITION. What a well-formed state and a safe run are, in the spec's terms (10_state.md R21, R22, R24, R28,
R29; 00_scope.md R19; 60_exceptions.md R172). -/

namespace Sys2Proof.Machine

/-- Every register holds a stored element: `0 ≤ val ≤ FE_MAX` (R21). -/
abbrev State.Stored (s : State) : Prop := ∀ r : RegIdx, (s.reg r).toNat ≤ s.params.feMax

/-- The encodings of `STATUS` that can occur (R28): bits 7:5 are 0, `CAUSE` is not 3, and `CAUSE ≠ 0` exactly
when `FAULT = 1`. -/
abbrev StatusLegal (st : BitVec 8) : Prop :=
  statusZero st = 0 ∧ statusCause st ≠ 3 ∧ (statusCause st ≠ 0 ↔ statusFault st = true)

/-- The invariant of the core: stored elements (R22), a legal `STATUS` (R28), and `FCMD = 0` while no fault has
been taken (R29: written only by fault entry, 0 at reset). -/
structure State.Inv (s : State) : Prop where
  stored : s.Stored
  statusLegal : StatusLegal s.status
  fcmdClear : s.faultFlag = false → s.fcmd = 0

/-- The halted state (R171). -/
abbrev State.Halted (s : State) : Prop := s.faultFlag = true

/-- The successful end of a run: every command the host presents has been accepted, and `FAULT = 0` (R19, R172). -/
abbrev State.SuccessfulEnd (s : State) : Prop := s.inputs = [] ∧ s.faultFlag = false

/-- The fault registers record a command that can have raised the recorded cause (R165 to R167, R170). -/
structure State.FaultRecorded (s : State) : Prop where
  illegal : s.cause = FaultCause.illegalCommand.code →
    ∃ e, decode ⟨s.fcmd, 0⟩ = .error e
  zeroDivisor : s.cause = FaultCause.zeroDivisor.code →
    ∃ i, decode ⟨s.fcmd, 0⟩ = .ok i ∧ i.divisor ≠ none

/-- Two states that differ at most in which representative of its residue each register holds (R24). -/
structure Indistinguishable (s t : State) : Prop where
  build : s.build = t.build
  residues : ∀ r : RegIdx, (s.reg r).toNat % s.params.P = (t.reg r).toNat % t.params.P
  dout : s.dout = t.dout
  status : s.status = t.status
  fcmd : s.fcmd = t.fcmd
  inputs : s.inputs = t.inputs

/-- One pass of the reduction engine on an exact integer, in the spec's terms (R80): the low `N` bits, the excess,
and the excess times `2^B`. -/
def reduceOnce (p : Params) (v : Nat) : Nat :=
  v % 2 ^ p.N + v / 2 ^ p.N + v / 2 ^ p.N * 2 ^ p.B

/-- `t` is `s` but for the register `rd`. -/
structure OnlyRegister (rd : RegIdx) (s t : State) : Prop where
  others : ∀ q : RegIdx, q ≠ rd → t.reg q = s.reg q
  dout : t.dout = s.dout
  status : t.status = s.status
  fcmd : t.fcmd = s.fcmd
  build : t.build = s.build
  inputs : t.inputs = s.inputs

/-- `t` is `s` but for `DOUT`. -/
structure OnlyDout (s t : State) : Prop where
  registers : ∀ q : RegIdx, t.reg q = s.reg q
  status : t.status = s.status
  fcmd : t.fcmd = s.fcmd
  build : t.build = s.build
  inputs : t.inputs = s.inputs

/-- `t` is `s` but for the flag `OK`: every other bit of `STATUS` is unchanged. -/
structure OnlyOkFlag (s t : State) : Prop where
  registers : ∀ q : RegIdx, t.reg q = s.reg q
  dout : t.dout = s.dout
  bits : ∀ k, k ≠ 0 → t.status.getLsbD k = s.status.getLsbD k
  fcmd : t.fcmd = s.fcmd
  build : t.build = s.build
  inputs : t.inputs = s.inputs

/-- `t` is `s` but for the flag `OK` and the register `rd`. -/
structure OnlyOkFlagAndRegister (rd : RegIdx) (s t : State) : Prop where
  others : ∀ q : RegIdx, q ≠ rd → t.reg q = s.reg q
  dout : t.dout = s.dout
  bits : ∀ k, k ≠ 0 → t.status.getLsbD k = s.status.getLsbD k
  fcmd : t.fcmd = s.fcmd
  build : t.build = s.build
  inputs : t.inputs = s.inputs

/-- `t` is `s` but for the flag `EQ`. -/
structure OnlyEqFlag (s t : State) : Prop where
  registers : ∀ q : RegIdx, t.reg q = s.reg q
  dout : t.dout = s.dout
  bits : ∀ k, k ≠ 1 → t.status.getLsbD k = s.status.getLsbD k
  fcmd : t.fcmd = s.fcmd
  build : t.build = s.build
  inputs : t.inputs = s.inputs

/-- Fault entry, as R170 writes it: `FAULT <- 1`, `CAUSE <- code`, `FCMD <- cmd`, and nothing else (`f0` to `f7`,
`DOUT`, `OK`, `EQ` and bits 7:5 keep their values). -/
structure FaultEntered (code : BitVec 2) (cmd : CmdWord) (s t : State) : Prop where
  fault : t.faultFlag = true
  cause : t.cause = code
  fcmd : t.fcmd = cmd
  registers : ∀ q : RegIdx, t.reg q = s.reg q
  dout : t.dout = s.dout
  ok : t.okFlag = s.okFlag
  eq : t.eqFlag = s.eqFlag
  zero : statusZero t.status = statusZero s.status
  build : t.build = s.build
  inputs : t.inputs = s.inputs

end Sys2Proof.Machine
end

