-- ==== Sys2Proof/Certificates/Slice0/Obligations.lean ====
section
/-! DEFINITION. The statements for the provers, by the numbered rules of spec/. Command words are written out as
sums of the fields at their bit positions (30_encoding.md R56, R59). -/

open Sys2Proof Sys2Proof.Machine

section Encoding

/-- Words of 95_test_vectors.md section 2.5 and the example of R59, with their verdicts. -/
def Obligations.DecodesWordsOfTheSpec : Prop :=
  ∀ d : Word,
    decode ⟨0x4328, d⟩ = .ok (.add 3 1 2) ∧ decode ⟨0x0800, d⟩ = .ok (.bro d) ∧
    decode ⟨0x1f00, d⟩ = .ok (.new 7 d) ∧ decode ⟨0x30e0, d⟩ = .ok (.val 7) ∧
    decode ⟨0x3f20, d⟩ = .ok (.mov 7 1) ∧ decode ⟨0x6020, d⟩ = .ok (.recip 0 1) ∧
    decode ⟨0x7804, d⟩ = .ok (.eq 0 1) ∧ decode ⟨0x57fc, d⟩ = .ok (.sub 7 7 7) ∧
    decode ⟨0x0000, d⟩ = .error .unassignedOpcode ∧ decode ⟨0xffff, d⟩ = .error .unassignedOpcode ∧
    decode ⟨0x432a, d⟩ = .error .reservedBits ∧ decode ⟨0x6004, d⟩ = .error .reservedBits

/-- Decoding an encoded instruction gives it back, for every instruction and every operand: no bit of an encoding
is dropped (R56 to R59). Every term of `Instr` is well formed by its types. -/
def Obligations.DecodeOfEncodeIsTheInstruction : Prop :=
  ∀ i : Instr, decode (encode i) = .ok i

/-- A legal word is the one encoding of the instruction it decodes to, so its fields are `rd = cmd[10:8]`,
`rs1 = cmd[7:5]`, `rs2 = cmd[4:2]` (R61, R63). -/
def Obligations.LegalWordIsItsOneEncoding : Prop :=
  ∀ (c : Command) (i : Instr), decode c = .ok i → encodeWord i = c.cmd

/-- A word `w` is the command of a row exactly when `w & mask = match` (R59): the decoder accepts exactly the words
of the fifteen rows, and no word belongs to two rows. -/
def Obligations.LegalWordsAreTheRowsOfTheMap : Prop :=
  ∀ c : Command,
    ((∃ i, decode c = .ok i) ↔ ∃ row ∈ opcodeTable, c.cmd &&& row.mask = row.matchWord) ∧
    ∀ row ∈ opcodeTable, ∀ row' ∈ opcodeTable,
      c.cmd &&& row.mask = row.matchWord → c.cmd &&& row'.mask = row'.matchWord → row = row'

/-- R61: a word with an assigned opcode and nonzero bits 1:0 or a nonzero unused register field raises
`ILLEGAL_COMMAND`; every legal command has one encoding; 2850 of the 65536 words are legal. -/
def Obligations.ReservedBitsAreIllegalAndCounted : Prop :=
  (∀ (s : State) (c : Command) (rest : List HostEvent), s.inputs = .command c :: rest →
    s.faultFlag = false → (CmdFields.ofWord c.cmd).opcodeAssigned = true →
    ((CmdFields.ofWord c.cmd).zeroClear = false ∨ (CmdFields.ofWord c.cmd).rdClear = false ∨
      (CmdFields.ofWord c.cmd).rs1Clear = false ∨ (CmdFields.ofWord c.cmd).rs2Clear = false) →
    ∃ t, step s = .next t ∧ FaultEntered 1 c.cmd { s with inputs := rest } t) ∧
  (∀ (w w' : CmdWord) (d : Word) (i : Instr), decode ⟨w, d⟩ = .ok i → decode ⟨w', d⟩ = .ok i → w = w') ∧
  ∃ legal : List CmdWord, legal.Nodup ∧ legal.length = 2850 ∧
    ∀ (w : CmdWord) (d : Word), w ∈ legal ↔ ∃ i, decode ⟨w, d⟩ = .ok i

/-- R60: an unassigned opcode (0x00, 0x10 to 0x1F) raises `ILLEGAL_COMMAND`; in particular the all-zero and the
all-ones word. -/
def Obligations.UnassignedOpcodesAreIllegal : Prop :=
  (∀ (s : State) (c : Command) (rest : List HostEvent), s.inputs = .command c :: rest →
    s.faultFlag = false → (c.cmd.toNat / 2048 = 0 ∨ 0x10 ≤ c.cmd.toNat / 2048) →
    ∃ t, step s = .next t ∧ FaultEntered 1 c.cmd { s with inputs := rest } t) ∧
  (0x0000#16).toNat / 2048 = 0 ∧ 0x10 ≤ (0xffff#16).toNat / 2048

/-- The decoder's masks and the field checks of WellFormed.lean accept the same words (R57, R61, R63). -/
def Obligations.DecoderAgreesWithTheFieldChecks : Prop :=
  ∀ c : Command, (∃ i, decode c = .ok i) ↔ (CmdFields.ofWord c.cmd).wellFormed = true

/-- Commands of the formats `S1`, `R2`, `R3`, `S2` (opcode 0x06 and above) ignore the data word: the whole step is
the same for every data word (R58). -/
def Obligations.RegisterCommandsIgnoreTheDataWord : Prop :=
  ∀ (s : State) (w : CmdWord) (d d' : Word), 6 * 2048 ≤ w.toNat →
    step (offerNext ⟨w, d⟩ s) = .fault .halted ∧ step (offerNext ⟨w, d'⟩ s) = .fault .halted ∨
    ∃ t, step (offerNext ⟨w, d⟩ s) = .next t ∧ step (offerNext ⟨w, d'⟩ s) = .next t

end Encoding

section Reduction

/-- R86: `DOUT <- bro(data)`; no flag and no register is written. -/
def Obligations.BroWritesTheReducedWord : Prop :=
  ∀ (s : State) (data : Word),
    decode ⟨0x0800, data⟩ = .ok (.bro data) ∧
    ∃ t, exec (.bro data) s = .next t ∧ t.dout.toNat = reduceOnce s.params data.toNat ∧
      t.dout.toNat % s.params.P = data.toNat % s.params.P ∧ t.dout.toNat ≤ s.params.feMax ∧
      (data.toNat ≤ s.params.fullMask → t.dout = data) ∧ OnlyDout s t

/-- R87 with R85: `DOUT <- rbp(data)` for every word: the residue below `2P`, `v − P` up to `P + 2^63`, `v` itself
above, and never a fault. `bro`, `bro`, `rbp` canonicalise any word, as `NEW` and `VAL` do. -/
def Obligations.RbpOnEveryDataWord : Prop :=
  ∀ (s : State) (data : Word),
    decode ⟨0x1000, data⟩ = .ok (.rbp data) ∧
    ∃ t, exec (.rbp data) s = .next t ∧ OnlyDout s t ∧
      (data.toNat < 2 * s.params.P → t.dout.toNat = data.toNat % s.params.P) ∧
      (2 * s.params.P ≤ data.toNat → data.toNat < s.params.P + 2 ^ 63 →
        t.dout.toNat = data.toNat - s.params.P) ∧
      (s.params.P + 2 ^ 63 ≤ data.toNat → t.dout = data) ∧
      (rbp s.params (bro s.params (bro s.params data))).toNat = data.toNat % s.params.P

/-- R81 (a) to (e): what one pass of `bro` guarantees, and what a second pass guarantees under V6. -/
def Obligations.BroPassesShrinkAndKeepResidues : Prop :=
  ∀ (p : Params) (v : Word),
    (bro p v).toNat + v.toNat / 2 ^ p.N * p.P = v.toNat ∧
    (bro p v).toNat % p.P = v.toNat % p.P ∧
    (bro p v).toNat ≤ p.feMax ∧
    (v.toNat ≤ p.fullMask → bro p v = v) ∧
    (v.toNat ≤ p.feMax → (bro p v).toNat ≤ p.fullMask ∧ (bro p v).toNat < 2 * p.P)

end Reduction

section Construction

/-- R96: `f[rd] <- bro(data)` for every data word; no flag is written. -/
def Obligations.NewStoresTheReducedWord : Prop :=
  ∀ (s : State) (rd : RegIdx) (data : Word),
    decode ⟨BitVec.ofNat 16 (0x1800 + 256 * rd.toNat), data⟩ = .ok (.new rd data) ∧
    ∃ t, exec (.new rd data) s = .next t ∧ (t.reg rd).toNat = reduceOnce s.params data.toNat ∧
      (t.reg rd).toNat % s.params.P = data.toNat % s.params.P ∧ (t.reg rd).toNat ≤ s.params.feMax ∧
      OnlyRegister rd s t

/-- R97: a word below `P` is stored and `OK <- 1`; any other clears `OK` and leaves the register. -/
def Obligations.FredStoresOnlyReducedWords : Prop :=
  ∀ (s : State) (rd : RegIdx) (data : Word),
    decode ⟨BitVec.ofNat 16 (0x2000 + 256 * rd.toNat), data⟩ = .ok (.fred rd data) ∧
    (data.toNat < s.params.P → ∃ t, exec (.fred rd data) s = .next t ∧ t.reg rd = data ∧
      t.okFlag = true ∧ OnlyOkFlagAndRegister rd s t) ∧
    (s.params.P ≤ data.toNat → ∃ t, exec (.fred rd data) s = .next t ∧
      t.okFlag = false ∧ OnlyOkFlag s t)

/-- R98: the low `N` bits of the data word, stored with `OK <- 1` when below `P`, else `OK <- 0` and no write; exactly
`2^B + 1` of the `2^N` masked values are rejected. -/
def Obligations.FunbMasksAndChecks : Prop :=
  (∀ (s : State) (rd : RegIdx) (data : Word),
    decode ⟨BitVec.ofNat 16 (0x2800 + 256 * rd.toNat), data⟩ = .ok (.funb rd data) ∧
    (data.toNat % 2 ^ s.params.N < s.params.P → ∃ t, exec (.funb rd data) s = .next t ∧
      (t.reg rd).toNat = data.toNat % 2 ^ s.params.N ∧ t.okFlag = true ∧
      OnlyOkFlagAndRegister rd s t) ∧
    (s.params.P ≤ data.toNat % 2 ^ s.params.N → ∃ t, exec (.funb rd data) s = .next t ∧
      t.okFlag = false ∧ OnlyOkFlag s t)) ∧
  ∀ p : Params, 2 ^ p.N - p.P = 2 ^ p.B + 1

/-- R99: `DOUT` is the canonical residue, below `P`, bits 63 down to `N` zero; the register keeps its content. -/
def Obligations.ValGivesTheCanonicalResidue : Prop :=
  ∀ (s : State) (rs1 : RegIdx) (data : Word), s.Stored →
    decode ⟨BitVec.ofNat 16 (0x3000 + 32 * rs1.toNat), data⟩ = .ok (.val rs1) ∧
    ∃ t, exec (.val rs1) s = .next t ∧ t.dout = value s.params (s.reg rs1) ∧
      t.dout.toNat = (s.reg rs1).toNat % s.params.P ∧
      t.dout.toNat < s.params.P ∧ t.dout.toNat < 2 ^ s.params.N ∧ OnlyDout s t

/-- R100: the 64-bit content, unchanged, not re-reduced. -/
def Obligations.MovCopiesTheContent : Prop :=
  ∀ (s : State) (rd rs1 : RegIdx) (data : Word),
    decode ⟨BitVec.ofNat 16 (0x3800 + 256 * rd.toNat + 32 * rs1.toNat), data⟩ = .ok (.mov rd rs1) ∧
    ∃ t, exec (.mov rd rs1) s = .next t ∧ t.reg rd = s.reg rs1 ∧ OnlyRegister rd s t ∧
      (rd = rs1 → t = s)

/-- R101: `EQ` is 1 exactly when the canonical values, that is the residues, agree. -/
def Obligations.EqComparesResidues : Prop :=
  ∀ (s : State) (rs1 rs2 : RegIdx) (data : Word), s.Stored →
    decode ⟨BitVec.ofNat 16 (0x7800 + 32 * rs1.toNat + 4 * rs2.toNat), data⟩ = .ok (.eq rs1 rs2) ∧
    ∃ t, exec (.eq rs1 rs2) s = .next t ∧ OnlyEqFlag s t ∧
      (t.eqFlag = true ↔ value s.params (s.reg rs1) = value s.params (s.reg rs2)) ∧
      (t.eqFlag = true ↔ (s.reg rs1).toNat % s.params.P = (s.reg rs2).toNat % s.params.P)

/-- R102: round trip, unbiased construction, and idempotence of canonicalisation. -/
def Obligations.ConstructionRoundTrips : Prop :=
  ∀ (s : State) (rd : RegIdx) (v : Word),
    (v.toNat < s.params.P → ∃ t u, exec (.fred rd v) s = .next t ∧ t.okFlag = true ∧
      exec (.val rd) t = .next u ∧ u.dout = v) ∧
    (s.params.P ≤ v.toNat → ∃ t, exec (.fred rd v) s = .next t ∧ t.okFlag = false) ∧
    (∀ t, exec (.funb rd v) s = .next t → t.okFlag = true →
      (t.reg rd).toNat < s.params.P ∧ (value s.params (t.reg rd)).toNat < s.params.P) ∧
    ((s.reg rd).toNat ≤ s.params.feMax → ∃ t, exec (.new rd (value s.params (s.reg rd))) s = .next t ∧
      (∃ u, exec (.fred rd (value s.params (s.reg rd))) s = .next u ∧ u.okFlag = true ∧
        u.reg rd = t.reg rd) ∧
      value s.params (t.reg rd) = value s.params (s.reg rd))

end Construction

section AddSub

/-- R113: `f[rd] <- bro(f[rs1] + f[rs2])`, the exact sum; no flag is written. -/
def Obligations.AddWritesTheFieldSum : Prop :=
  ∀ (s : State) (rd rs1 rs2 : RegIdx) (data : Word), s.Stored →
    decode ⟨BitVec.ofNat 16 (0x4000 + 256 * rd.toNat + 32 * rs1.toNat + 4 * rs2.toNat), data⟩
      = .ok (.add rd rs1 rs2) ∧
    ∃ t, exec (.add rd rs1 rs2) s = .next t ∧ OnlyRegister rd s t ∧
      (t.reg rd).toNat = reduceOnce s.params ((s.reg rs1).toNat + (s.reg rs2).toNat) ∧
      (t.reg rd).toNat % s.params.P = ((s.reg rs1).toNat + (s.reg rs2).toNat) % s.params.P ∧
      (t.reg rd).toNat ≤ s.params.feMax

/-- R114: `f[rd] <- bro(2·P − f[rs1])`, with no wrap; the negation of a zero element has content `P`. -/
def Obligations.NegWritesTheAdditiveInverse : Prop :=
  ∀ (s : State) (rd rs1 : RegIdx) (data : Word), s.Stored →
    decode ⟨BitVec.ofNat 16 (0x4800 + 256 * rd.toNat + 32 * rs1.toNat), data⟩ = .ok (.neg rd rs1) ∧
    ∃ t, exec (.neg rd rs1) s = .next t ∧ OnlyRegister rd s t ∧
      (s.reg rs1).toNat ≤ 2 * s.params.P ∧
      (t.reg rd).toNat = reduceOnce s.params (2 * s.params.P - (s.reg rs1).toNat) ∧
      ((t.reg rd).toNat + (s.reg rs1).toNat) % s.params.P = 0 ∧
      (t.reg rd).toNat ≤ s.params.feMax ∧
      ((s.reg rs1).toNat % s.params.P = 0 → (t.reg rd).toNat = s.params.P)

/-- R115: `f[rd] <- bro(f[rs1] + bro(2·P − f[rs2]))`; of an element with itself the content is `P`. -/
def Obligations.SubWritesTheFieldDifference : Prop :=
  ∀ (s : State) (rd rs1 rs2 : RegIdx) (data : Word), s.Stored →
    decode ⟨BitVec.ofNat 16 (0x5000 + 256 * rd.toNat + 32 * rs1.toNat + 4 * rs2.toNat), data⟩
      = .ok (.sub rd rs1 rs2) ∧
    ∃ t, exec (.sub rd rs1 rs2) s = .next t ∧ OnlyRegister rd s t ∧
      (t.reg rd).toNat = reduceOnce s.params
        ((s.reg rs1).toNat + reduceOnce s.params (2 * s.params.P - (s.reg rs2).toNat)) ∧
      ((t.reg rd).toNat + (s.reg rs2).toNat) % s.params.P = (s.reg rs1).toNat % s.params.P ∧
      (t.reg rd).toNat ≤ s.params.feMax ∧
      (rs1 = rs2 → (t.reg rd).toNat = s.params.P)

/-- R116: the group laws of addition, of canonical values of stored elements. -/
def Obligations.AdditionLawsHoldOfResidues : Prop :=
  ∀ (p : Params) (a b c : Word), a.toNat ≤ p.feMax → b.toNat ≤ p.feMax → c.toNat ≤ p.feMax →
    value p (fadd p a b) = value p (fadd p b a) ∧
    value p (fadd p (fadd p a b) c) = value p (fadd p a (fadd p b c)) ∧
    value p (fadd p a 0) = value p a ∧
    value p (fadd p a (fneg p a)) = 0

end AddSub

section Multiply

/-- R121 with R120: the exact product folded by three passes; no flag is written. -/
def Obligations.MulWritesTheFieldProduct : Prop :=
  ∀ (s : State) (rd rs1 rs2 : RegIdx) (data : Word), s.Stored →
    decode ⟨BitVec.ofNat 16 (0x5800 + 256 * rd.toNat + 32 * rs1.toNat + 4 * rs2.toNat), data⟩
      = .ok (.mul rd rs1 rs2) ∧
    ∃ t, exec (.mul rd rs1 rs2) s = .next t ∧ OnlyRegister rd s t ∧
      (t.reg rd).toNat = reduceOnce s.params (reduceOnce s.params (reduceOnce s.params
        ((s.reg rs1).toNat * (s.reg rs2).toNat))) ∧
      (t.reg rd).toNat % s.params.P = (s.reg rs1).toNat * (s.reg rs2).toNat % s.params.P ∧
      (t.reg rd).toNat ≤ s.params.feMax

/-- The widths of the multiplier suffice for every core (R120, R122): the product is below `2^126`, and two wide
passes bring it below `2^64`, so the low half that the third pass takes is the whole. -/
def Obligations.MultiplierWidthsSuffice : Prop :=
  ∀ (p : Params) (a b : Word), a.toNat ≤ p.feMax → b.toNat ≤ p.feMax →
    (wideProduct a b).toNat = a.toNat * b.toNat ∧ (wideProduct a b).toNat < 2 ^ 126 ∧
    (bro128 p (wideProduct a b)).toNat = reduceOnce p (a.toNat * b.toNat) ∧
    (bro128 p (bro128 p (wideProduct a b))).toNat < 2 ^ 64

/-- R123: the laws of multiplication, and distributivity, of canonical values of stored elements. -/
def Obligations.MultiplicationLawsHoldOfResidues : Prop :=
  ∀ (p : Params) (a b c : Word), a.toNat ≤ p.feMax → b.toNat ≤ p.feMax → c.toNat ≤ p.feMax →
    value p (fmul p a b) = value p (fmul p b a) ∧
    value p (fmul p (fmul p a b) c) = value p (fmul p a (fmul p b c)) ∧
    value p (fmul p a 1) = value p a ∧
    value p (fmul p a (fadd p b c)) = value p (fadd p (fmul p a b) (fmul p a c))

end Multiply

section Inverse

/-- R130: the exponent `2^N − 2^B − 3`, its bits and how many of them are 1, for `B ≥ 3` and for `B = 1`. -/
def Obligations.ExponentBitPattern : Prop :=
  ∀ p : Params,
    exponent p + 2 ^ p.B + 3 = 2 ^ p.N ∧
    (3 ≤ p.B → ∀ i < p.N, (exponentBit p i = true ↔ i ≠ 1 ∧ i ≠ p.B)) ∧
    (p.B = 1 → ∀ i < p.N, (exponentBit p i = true ↔ i ≠ 2)) ∧
    exponentBit p (p.N - 1) = true ∧
    (3 ≤ p.B → ((List.range p.N).countP fun i => exponentBit p i) = p.N - 2) ∧
    (p.B = 1 → ((List.range p.N).countP fun i => exponentBit p i) = p.N - 1)

/-- R131: the chain is the loop of the rule, its running base stands for `a^(2^i)` before step `i`, and its result is a
stored element and stands for `a^(P−2)`. -/
def Obligations.ChainComputesThePower : Prop :=
  ∀ (p : Params) (a : Word), a.toNat ≤ p.feMax →
    fpowPm2 p a = ((List.range p.N).foldl (fun xy i =>
      (fmul p xy.1 xy.1, if (p.P - 2).testBit i then fmul p xy.2 xy.1 else xy.2)) (a, (1 : Word))).2 ∧
    (∀ i ≤ p.N, ((chainOpsFrom p i 0).foldl (chainApply p) (a, 1)).1.toNat % p.P = a.toNat ^ 2 ^ i % p.P) ∧
    (fpowPm2 p a).toNat % p.P = a.toNat ^ (p.P - 2) % p.P ∧ (fpowPm2 p a).toNat ≤ p.feMax

/-- R132: the chain's operations are a fixed list of `N` squarings and `popcount(E)` multiplications, `2N − 2` in all
when `B ≥ 3`; 62 and 60 for the reference instantiation. -/
def Obligations.ChainOperationCounts : Prop :=
  (∀ p : Params, (chainOps p).count .square = p.N ∧
    (chainOps p).count .multiply = ((List.range p.N).countP fun i => exponentBit p i) ∧
    (3 ≤ p.B → (chainOps p).length = 2 * p.N - 2)) ∧
  (chainOps Config.reference).count .square = 62 ∧ (chainOps Config.reference).count .multiply = 60

/-- R136: of the stored elements exactly the contents 0 and `P` are zero elements. -/
def Obligations.ZeroElementsAreZeroAndP : Prop :=
  ∀ (p : Params) (a : Word), a.toNat ≤ p.feMax →
    (isZero p a = true ↔ value p a = 0) ∧ (isZero p a = true ↔ a.toNat = 0 ∨ a.toNat = p.P)

/-- R133: a nonzero element is replaced by the chain's result; a zero element raises `ZERO_DIVISOR` with no write of
`f[rd]`. -/
def Obligations.RecipInvertsOrFaults : Prop :=
  ∀ (s : State) (rd rs1 : RegIdx) (data : Word), s.Stored →
    decode ⟨BitVec.ofNat 16 (0x6000 + 256 * rd.toNat + 32 * rs1.toNat), data⟩ = .ok (.recip rd rs1) ∧
    ((s.reg rs1).toNat % s.params.P ≠ 0 → ∃ t, exec (.recip rd rs1) s = .next t ∧
      OnlyRegister rd s t ∧ t.reg rd = fpowPm2 s.params (s.reg rs1) ∧
      (t.reg rd).toNat % s.params.P = (s.reg rs1).toNat ^ (s.params.P - 2) % s.params.P ∧
      (t.reg rd).toNat ≤ s.params.feMax) ∧
    ((s.reg rs1).toNat % s.params.P = 0 → ∃ t, exec (.recip rd rs1) s = .next t ∧
      FaultEntered 2 (BitVec.ofNat 16 (0x6000 + 256 * rd.toNat + 32 * rs1.toNat)) s t)

/-- R134: `f[rd] <- fmul(a, fpow_pm2(b))` for a nonzero divisor; `ZERO_DIVISOR` for a zero divisor, whatever the
dividend. -/
def Obligations.DivDividesOrFaults : Prop :=
  ∀ (s : State) (rd rs1 rs2 : RegIdx) (data : Word), s.Stored →
    decode ⟨BitVec.ofNat 16 (0x6800 + 256 * rd.toNat + 32 * rs1.toNat + 4 * rs2.toNat), data⟩
      = .ok (.div rd rs1 rs2) ∧
    ((s.reg rs2).toNat % s.params.P ≠ 0 → ∃ t, exec (.div rd rs1 rs2) s = .next t ∧
      OnlyRegister rd s t ∧
      t.reg rd = fmul s.params (s.reg rs1) (fpowPm2 s.params (s.reg rs2)) ∧
      (t.reg rd).toNat % s.params.P
        = (s.reg rs1).toNat * (s.reg rs2).toNat ^ (s.params.P - 2) % s.params.P ∧
      (t.reg rd).toNat ≤ s.params.feMax) ∧
    ((s.reg rs2).toNat % s.params.P = 0 → ∃ t, exec (.div rd rs1 rs2) s = .next t ∧
      FaultEntered 2
        (BitVec.ofNat 16 (0x6800 + 256 * rd.toNat + 32 * rs1.toNat + 4 * rs2.toNat)) s t)

/-- R135: `f[rd] <- fsub(a, fmul(a, fpow_pm2(b)))`, the literal `a − (a / b)`; `ZERO_DIVISOR` for a zero divisor. -/
def Obligations.RemSubtractsTheQuotientOrFaults : Prop :=
  ∀ (s : State) (rd rs1 rs2 : RegIdx) (data : Word), s.Stored →
    decode ⟨BitVec.ofNat 16 (0x7000 + 256 * rd.toNat + 32 * rs1.toNat + 4 * rs2.toNat), data⟩
      = .ok (.rem rd rs1 rs2) ∧
    ((s.reg rs2).toNat % s.params.P ≠ 0 → ∃ t, exec (.rem rd rs1 rs2) s = .next t ∧
      OnlyRegister rd s t ∧
      t.reg rd = fsub s.params (s.reg rs1) (fmul s.params (s.reg rs1) (fpowPm2 s.params (s.reg rs2))) ∧
      ((t.reg rd).toNat + (s.reg rs1).toNat * (s.reg rs2).toNat ^ (s.params.P - 2)) % s.params.P
        = (s.reg rs1).toNat % s.params.P ∧
      (t.reg rd).toNat ≤ s.params.feMax) ∧
    ((s.reg rs2).toNat % s.params.P = 0 → ∃ t, exec (.rem rd rs1 rs2) s = .next t ∧
      FaultEntered 2
        (BitVec.ofNat 16 (0x7000 + 256 * rd.toNat + 32 * rs1.toNat + 4 * rs2.toNat)) s t)

/-- R137: when `P` is prime, the chain's result is the inverse of a nonzero element. A core's `P` is prime (R9), so on a
core `RECIP`, `MUL`, `VAL` of a nonzero element leave `DOUT = 1`, and `DIV` then `MUL` by the divisor gives back the
dividend's canonical value. -/
def Obligations.InversionAndDivisionAreConsistent : Prop :=
  (∀ (p : Params) (a : Word), p.PrimeModulus → a.toNat ≤ p.feMax → isZero p a = false →
    value p (fmul p a (fpowPm2 p a)) = 1) ∧
  ∀ (s : State) (rd rs1 rs2 : RegIdx), s.Stored →
    (s.reg rs2).toNat % s.params.P ≠ 0 → rd ≠ rs2 →
    (∃ t u v, exec (.recip rd rs2) s = .next t ∧ exec (.mul rd rs2 rd) t = .next u ∧
      exec (.val rd) u = .next v ∧ v.dout = 1) ∧
    (∃ t u v, exec (.div rd rs1 rs2) s = .next t ∧ exec (.mul rd rd rs2) t = .next u ∧
      exec (.val rd) u = .next v ∧ v.dout = value s.params (s.reg rs1))

end Inverse

section Machine

/-- A step runs the decoded command: on a running core, `exec` of the instruction at the state with the pair taken off
the port (R196, R201). -/
def Obligations.StepRunsTheDecodedCommand : Prop :=
  ∀ (s : State) (c : Command) (rest : List HostEvent) (i : Instr), s.inputs = .command c :: rest →
    s.faultFlag = false → decode c = .ok i → step s = exec i { s with inputs := rest }

/-- On a running core every pair has a defined effect (R201): the step answers a next state, whatever the word and the
data. -/
def Obligations.EveryPairHasAnEffectWhileRunning : Prop :=
  ∀ (s : State) (c : Command), s.faultFlag = false → ∃ t, step (offerNext c s) = .next t ∧
    t.inputs = s.inputs ∧ t.build = s.build

/-- Fault entry (R170) and its only causes (R166, R167): a step that is no reset sets `FAULT` exactly when the command
is illegal, or is `RECIP`, `DIV` or `REM` with a zero element where the divisor stands; it then writes `FAULT`, `CAUSE`
and `FCMD` and nothing else. -/
def Obligations.FaultsAreExactlyTheTwoOfTheSpec : Prop :=
  ∀ (s : State) (c : Command) (rest : List HostEvent), s.inputs = .command c :: rest →
    s.faultFlag = false →
    (∀ t, step s = .next t → t.faultFlag = true →
      ((∃ e, decode c = .error e) ∧ FaultEntered 1 c.cmd { s with inputs := rest } t) ∨
      ∃ i a, decode c = .ok i ∧ i.divisor = some a ∧ isZero s.params (s.reg a) = true ∧
        FaultEntered 2 c.cmd { s with inputs := rest } t) ∧
    (∀ e, decode c = .error e → ∃ t, step s = .next t ∧
      FaultEntered 1 c.cmd { s with inputs := rest } t) ∧
    (∀ i a, decode c = .ok i → i.divisor = some a → isZero s.params (s.reg a) = true →
      ∃ t, step s = .next t ∧ FaultEntered 2 c.cmd { s with inputs := rest } t)

/-- R171: a halted core accepts no command and takes no step but reset. -/
def Obligations.HaltedCoreTakesOnlyReset : Prop :=
  ∀ s : State, s.faultFlag = true →
    (∀ c rest, s.inputs = .command c :: rest → step s = .fault .halted) ∧
    (∀ t, step s = .next t → ∃ rest, s.inputs = .reset :: rest ∧ t.faultFlag = false)

/-- R190: reset acts in every state, the halted state too, and leaves every piece of the core's state at its reset
value; no other step of a halted core exists, so it is the only event that clears `FAULT`, `CAUSE`, `FCMD`. -/
def Obligations.ResetLeavesTheResetState : Prop :=
  (∀ (s : State) (rest : List HostEvent), s.inputs = .reset :: rest →
    ∃ t, step s = .next t ∧ (∀ r, t.reg r = 0) ∧ t.dout = 0 ∧ t.status = 0 ∧ t.fcmd = 0 ∧
      t.build = s.build) ∧
  (∀ s t : State, s.Inv → step s = .next t → (∀ rest, s.inputs ≠ .reset :: rest) →
    s.faultFlag = false ∧ s.cause = 0 ∧ s.fcmd = 0)

/-- R34: the reset values, for every instantiation. -/
def Obligations.ResetValues : Prop :=
  (∀ (c : CoreParams) (r : RegIdx), (State.resetAt c).reg r = 0) ∧
  (∀ c : CoreParams, (State.resetAt c).dout = 0 ∧ (State.resetAt c).status = 0 ∧
    (State.resetAt c).fcmd = 0 ∧ (State.resetAt c).build = c)

/-- The model's choices: a running core with nothing offered waits and keeps its state (R190; log entry 4), and a halted
core with nothing offered is stuck (log entry 5). -/
def Obligations.WaitingCoreKeepsItsState : Prop :=
  ∀ s : State, s.inputs = [] →
    (s.faultFlag = false → step s = .next s) ∧ (s.faultFlag = true → step s = .fault .halted)

/-- `OK` is written by `FRED` and `FUNB` only, `EQ` by `EQ` only (R26): a step that is no reset and changes one of them
runs such a command. -/
def Obligations.FlagsHaveOneWriterEach : Prop :=
  ∀ s t : State, step s = .next t → (∀ rest, s.inputs ≠ .reset :: rest) →
    (t.okFlag ≠ s.okFlag → ∃ c rest rd d, s.inputs = .command c :: rest ∧
      (decode c = .ok (.fred rd d) ∨ decode c = .ok (.funb rd d))) ∧
    (t.eqFlag ≠ s.eqFlag → ∃ c rest rs1 rs2, s.inputs = .command c :: rest ∧
      decode c = .ok (.eq rs1 rs2))

/-- R27: `DOUT` is written by `BRO`, `RBP` and `VAL` with their result, and by no other command and no fault. -/
def Obligations.DoutIsWrittenByThreeCommands : Prop :=
  ∀ s t : State, step s = .next t → (∀ rest, s.inputs ≠ .reset :: rest) →
    (t.dout ≠ s.dout → ∃ c rest, s.inputs = .command c :: rest ∧
      ((∃ d, decode c = .ok (.bro d)) ∨ (∃ d, decode c = .ok (.rbp d)) ∨
        ∃ r, decode c = .ok (.val r))) ∧
    ∀ c rest, s.inputs = .command c :: rest →
      (∀ d, decode c = .ok (.bro d) → t.dout = bro s.params d) ∧
      (∀ d, decode c = .ok (.rbp d) → t.dout = rbp s.params d) ∧
      (∀ r, decode c = .ok (.val r) → t.dout = value s.params (s.reg r))

/-- R23: a command writes no register but its destination, and none when it faults or when `FRED` or `FUNB` rejects; what
it writes to that register, to `DOUT` and to the flags `OK` and `EQ` depends on its source registers only. -/
def Obligations.CommandsReadSourcesAndWriteDestination : Prop :=
  ∀ (i : Instr) (s t : State), exec i s = .next t →
    (∀ q, i.dest ≠ some q → t.reg q = s.reg q) ∧
    (t.faultFlag ≠ s.faultFlag → ∀ q, t.reg q = s.reg q) ∧
    (∀ rd d, i = .fred rd d ∨ i = .funb rd d → t.okFlag = false → t.reg rd = s.reg rd) ∧
    ∀ s' t' : State, exec i s' = .next t' → s'.params = s.params →
      (∀ q ∈ i.sources, s'.reg q = s.reg q) →
      (∀ rd, i.dest = some rd →
        t.reg rd = t'.reg rd ∨ (t.reg rd = s.reg rd ∧ t'.reg rd = s'.reg rd)) ∧
      (t.dout = t'.dout ∨ (t.dout = s.dout ∧ t'.dout = s'.dout)) ∧
      (t.okFlag = t'.okFlag ∨ (t.okFlag = s.okFlag ∧ t'.okFlag = s'.okFlag)) ∧
      (t.eqFlag = t'.eqFlag ∨ (t.eqFlag = s.eqFlag ∧ t'.eqFlag = s'.eqFlag))

/-- R22 with R28 and R29: the invariant holds after reset and every step keeps it: every register is at most `FE_MAX`,
`STATUS` is a legal encoding, `FCMD` is 0 while no fault has been taken. -/
def Obligations.StepKeepsTheInvariantOfTheCore : Prop :=
  ∀ s t : State, s.Inv → step s = .next t → t.Inv

/-- The invariant holds after reset, for every instantiation (R22, R34), and the model's `State.reset` is the one of the
reference instantiation (the model's choice, log entry 1). -/
def Obligations.ResetMeetsTheInvariantOfTheCore : Prop :=
  (∀ c : CoreParams, (State.resetAt c).Inv) ∧ State.reset = State.resetAt Config.referenceCore

/-- The fault registers always name a command that can have raised the recorded cause (R165 to R167, R170): this holds
after reset, and every step keeps it. -/
def Obligations.FaultRegistersNameTheCulprit : Prop :=
  (∀ c : CoreParams, (State.resetAt c).FaultRecorded) ∧
  ∀ s t : State, s.FaultRecorded → step s = .next t → t.FaultRecorded

/-- R24: the content of a register is not observable. Two cores that differ only in which representatives their registers
hold answer alike for any number of steps, and every output agrees. -/
def Obligations.RepresentativesAreUnobservable : Prop :=
  ∀ (k : Nat) (s t : State), s.Stored → t.Stored → Indistinguishable s t →
    (∀ s', Host.Core.run Sys2Proof.core k s = .next s' → ∃ t' : State,
      Host.Core.run Sys2Proof.core k t = .next t' ∧ Indistinguishable s' t' ∧
      State.outputs s' = State.outputs t') ∧
    (∀ r, Host.Core.run Sys2Proof.core k s = .fault r → Host.Core.run Sys2Proof.core k t = .fault r)

/-- The commands that R44 names give, run twice with the same data, what they give once. -/
def Obligations.RepeatedDataMovementChangesNothing : Prop :=
  ∀ (i : Instr) (s t : State),
    ((∃ d, i = .bro d) ∨ (∃ d, i = .rbp d) ∨ (∃ rd d, i = .new rd d) ∨ (∃ rd d, i = .fred rd d) ∨
      (∃ rd d, i = .funb rd d) ∨ (∃ r, i = .val r) ∨ (∃ rd r, i = .mov rd r ∧ rd ≠ r) ∨
      ∃ a b, i = .eq a b) →
    exec i s = .next t → exec i t = .next t

/-- How a run of a command list ends (R19, R172): one step past the list the core has ended well, with every command
accepted and `FAULT = 0`, or it is stuck in the halted state; a state with `FAULT = 1` is no successful end. -/
def Obligations.CommandListsEndWellOrStuck : Prop :=
  ∀ (cs : List Command) (s : State), s.inputs = cs.map .command →
    (∃ t : State, Host.Core.run Sys2Proof.core (cs.length + 1) s = .next t ∧ t.SuccessfulEnd ∧ ¬ t.Halted) ∨
    Host.Core.run Sys2Proof.core (cs.length + 1) s = .fault .halted

/-- No step changes the parameters (R19, R34), and each step takes at most the host's next event (R46; that a reset takes
no more than that is the model's choice, log entry 6). -/
def Obligations.StepKeepsParametersAndOrder : Prop :=
  ∀ s t : State, step s = .next t → t.build = s.build ∧ t.inputs = s.inputs.tail

end Machine

section HostSequences

/-- R151: `random fd` stores the first accepted draw, masked, and changes nothing else but `OK`. -/
def Obligations.RandomStoresTheFirstAcceptedDraw : Prop :=
  ∀ (s : State) (fd : RegIdx) (bad rest : List Word), s.faultFlag = false →
    (∀ x ∈ bad, s.params.P ≤ x.toNat % 2 ^ s.params.N) →
    ∀ w : Word, w.toNat % 2 ^ s.params.N < s.params.P →
      ∃ t, runRandom fd (bad ++ w :: rest) s = .done t rest ∧
        (t.reg fd).toNat = w.toNat % 2 ^ s.params.N ∧ t.okFlag = true ∧
        OnlyOkFlagAndRegister fd s t

/-- Draws that are all rejected leave the loop of `random fd` running (R151), with the zero of its first command in the
register, which is no sample (R152). That a finite list of draws then answers `drawing` is the model's choice (log
entry 14). -/
def Obligations.RejectedDrawsKeepTheLoopRunning : Prop :=
  ∀ (s : State) (fd : RegIdx) (bad : List Word), s.faultFlag = false →
    (∀ x ∈ bad, s.params.P ≤ x.toNat % 2 ^ s.params.N) →
    ∃ t, runRandom fd bad s = .drawing t ∧ t.reg fd = 0 ∧ (bad ≠ [] → t.okFlag = false) ∧
      OnlyOkFlagAndRegister fd s t

/-- R153: `share fd0, fd1, fs` leaves a canonical `s0` and `s1 = secret − s0`, whose sum has the secret's canonical
value. -/
def Obligations.SharesAddUpToTheSecret : Prop :=
  ∀ (s : State) (fd0 fd1 fs : RegIdx) (bad rest : List Word) (w : Word), s.Stored →
    s.faultFlag = false → fd0 ≠ fs → fd0 ≠ fd1 →
    (∀ x ∈ bad, s.params.P ≤ x.toNat % 2 ^ s.params.N) →
    w.toNat % 2 ^ s.params.N < s.params.P →
    ∃ t, runShare fd0 fd1 fs (bad ++ w :: rest) s = .done t rest ∧
      (t.reg fd0).toNat = w.toNat % 2 ^ s.params.N ∧ (t.reg fd0).toNat < s.params.P ∧
      t.reg fd1 = fsub s.params (s.reg fs) (t.reg fd0) ∧
      value s.params (fadd s.params (t.reg fd0) (t.reg fd1)) = value s.params (s.reg fs) ∧
      (∀ q, q ≠ fd0 → q ≠ fd1 → t.reg q = s.reg q) ∧ t.dout = s.dout ∧ t.faultFlag = false

/-- R154: `sharernd fd0, fd1` leaves two canonical elements from disjoint sets of draws. -/
def Obligations.SharedRandomnessTakesTwoDraws : Prop :=
  ∀ (s : State) (fd0 fd1 : RegIdx) (bad bad' rest : List Word) (w w' : Word),
    s.faultFlag = false → fd0 ≠ fd1 →
    (∀ x ∈ bad ++ bad', s.params.P ≤ x.toNat % 2 ^ s.params.N) →
    w.toNat % 2 ^ s.params.N < s.params.P → w'.toNat % 2 ^ s.params.N < s.params.P →
    ∃ t, runShareRandom fd0 fd1 (bad ++ w :: (bad' ++ w' :: rest)) s = .done t rest ∧
      (t.reg fd0).toNat = w.toNat % 2 ^ s.params.N ∧ (t.reg fd0).toNat < s.params.P ∧
      (t.reg fd1).toNat = w'.toNat % 2 ^ s.params.N ∧ (t.reg fd1).toNat < s.params.P ∧
      (∀ q, q ≠ fd0 → q ≠ fd1 → t.reg q = s.reg q) ∧ t.dout = s.dout ∧ t.faultFlag = false

/-- The pseudo-instructions of R71 and the lazy aliases of R72 assemble to the instructions the rules name, and the
commands they stand for to the same. -/
def Obligations.PseudoInstructionsExpandAsStated : Prop :=
  ∀ a b c : RegIdx,
    asmInstr "zero".toList [.reg a] = some (.new a 0) ∧ asmInstr "one".toList [.reg a] = some (.new a 1) ∧
    (∀ k : Word, asmInstr "fromu8".toList [.reg a, .data k]
      = if k.toNat ≤ 255 then some (.new a k) else none) ∧
    asmInstr "sqr".toList [.reg a, .reg b] = some (.mul a b b) ∧
    asmInstr "mul".toList [.reg a, .reg b, .reg b] = some (.mul a b b) ∧
    asmInstr "add.l".toList [.reg a, .reg b, .reg c] = some (.add a b c) ∧
    asmInstr "add".toList [.reg a, .reg b, .reg c] = some (.add a b c) ∧
    asmInstr "sub.l".toList [.reg a, .reg b, .reg c] = some (.sub a b c) ∧
    asmInstr "sub".toList [.reg a, .reg b, .reg c] = some (.sub a b c) ∧
    asmInstr "mul.l".toList [.reg a, .reg b, .reg c] = some (.mul a b c) ∧
    asmInstr "mul".toList [.reg a, .reg b, .reg c] = some (.mul a b c) ∧
    asmInstr "neg.l".toList [.reg a, .reg b] = some (.neg a b) ∧
    asmInstr "neg".toList [.reg a, .reg b] = some (.neg a b)

end HostSequences

section Constants

/-- R9: the cores of the model are exactly the pairs that meet V1 to V6, so every state has a valid pair, and a pair that
fails V3 and V5 (42, 30), V6 alone (36, 8) or V5 alone (62, 1) has no core. -/
def Obligations.CoresAreExactlyTheValidPairs : Prop :=
  (∀ N B : Nat, (∃ c : CoreParams, c.N = N ∧ c.B = B) ↔
    N % 2 = 0 ∧ (34 ≤ N ∧ N ≤ 62) ∧ (0 < B ∧ B < N / 2) ∧ B ≠ 2 ∧ (2 ^ N - 2 ^ B - 1).Prime ∧
      2 ^ N - 1 + (2 ^ (64 - N) - 1) * 2 ^ B + (2 ^ (64 - N) - 1) ≤ 2 * (2 ^ N - 2 ^ B - 1)) ∧
  (∀ s : State, Config.Valid s.params.N s.params.B) ∧
  (¬ ∃ c : CoreParams, c.N = 42 ∧ c.B = 30) ∧ (¬ ∃ c : CoreParams, c.N = 36 ∧ c.B = 8) ∧
  ¬ ∃ c : CoreParams, c.N = 62 ∧ c.B = 1

/-- The constants of the two instantiations, as the table of R13 gives them. -/
def Obligations.ConstantsOfTheTwoInstantiations : Prop :=
  (Config.reference.N = 62 ∧ Config.reference.B = 30 ∧ Config.reference.P = 0x3fffffffbfffffff ∧
    Config.reference.fullMask = 0x3fffffffffffffff ∧ Config.reference.maxExcess = 3 ∧
    Config.reference.feMax = 0x40000000c0000002 ∧ exponent Config.reference = 0x3fffffffbffffffd) ∧
  (Config.second.N = 36 ∧ Config.second.B = 4 ∧ Config.second.P = 0xfffffffef ∧
    Config.second.fullMask = 0xfffffffff ∧ Config.second.maxExcess = 0x0fffffff ∧
    Config.second.feMax = 0x110fffffee ∧ exponent Config.second = 0xfffffffed)

/-- The headroom facts H1 to H6 of R11, for every pair that meets V1 to V4 and V6, so for every core. -/
def Obligations.HeadroomOfEveryInstantiation : Prop :=
  ∀ p : Params,
    2 * p.feMax < 2 ^ 64 ∧ 2 * p.P < 2 ^ 64 ∧ p.feMax * p.feMax < 2 ^ 126 ∧
    (∀ w ≤ p.feMax * p.feMax, reduceOnce p (reduceOnce p w) < 2 ^ 64) ∧
    (∀ v < 2 ^ 64, reduceOnce p v ≤ p.feMax) ∧
    (∀ v ≤ p.feMax, reduceOnce p v < 2 * p.P)

end Constants
end

