-- ==== Sys2Proof/Laws/Params.lean ====
section
/-! SUPPORT. The facts about the constants that the arithmetic rests on (00_scope.md R8, R9, R11), for every
`Params`: with `n = 2^N`, `b = 2^B`, `e = 2^(64−N)`. -/

namespace Sys2Proof

section
variable (p : Params)

theorem Params.N_even : p.N % 2 = 0 := p.ok.1
theorem Params.N_ge : 34 ≤ p.N := p.ok.2.1.1
theorem Params.N_le : p.N ≤ 62 := p.ok.2.1.2
theorem Params.B_pos : 0 < p.B := p.ok.2.2.1.1
theorem Params.B_lt : p.B < p.N / 2 := p.ok.2.2.1.2
theorem Params.B_ne_two : p.B ≠ 2 := p.ok.2.2.2.1
/-- V6 (R9). -/
theorem Params.feMax_le : p.feMax ≤ 2 * p.P := p.ok.2.2.2.2

/-- `B ≤ N/2 − 1`, so `4·(2^B)² ≤ 2^N`. -/
theorem Params.sq_le : 4 * (2 ^ p.B * 2 ^ p.B) ≤ 2 ^ p.N := by
  have h : 2 + (p.B + p.B) ≤ p.N := by have := p.B_lt; omega
  calc 4 * (2 ^ p.B * 2 ^ p.B) = 2 ^ (2 + (p.B + p.B)) := by rw [pow_add, pow_add]; norm_num
    _ ≤ 2 ^ p.N := Nat.pow_le_pow_right (by norm_num) h

theorem Params.two_pow_N_ge : 2 ^ 34 ≤ 2 ^ p.N := Nat.pow_le_pow_right (by norm_num) p.N_ge
theorem Params.two_pow_N_le : 2 ^ p.N ≤ 2 ^ 62 := Nat.pow_le_pow_right (by norm_num) p.N_le
theorem Params.two_pow_B_ge : 2 ≤ 2 ^ p.B := by
  calc 2 = 2 ^ 1 := rfl
    _ ≤ 2 ^ p.B := Nat.pow_le_pow_right (by norm_num) p.B_pos
theorem Params.two_pow_B_le : 2 ^ p.B ≤ 2 ^ 30 :=
  Nat.pow_le_pow_right (by norm_num) (by have := p.B_lt; have := p.N_le; omega)
theorem Params.excess_ge : 4 ≤ 2 ^ (64 - p.N) := by
  calc 4 = 2 ^ 2 := rfl
    _ ≤ 2 ^ (64 - p.N) := Nat.pow_le_pow_right (by norm_num) (by have := p.N_le; omega)
theorem Params.pow_mul_excess : 2 ^ p.N * 2 ^ (64 - p.N) = 2 ^ 64 := by
  rw [← pow_add]; congr 1; have := p.N_le; omega

/-- `P + 2^B + 1 = 2^N`, the identity every reduction rests on (R8). -/
theorem Params.P_add : p.P + (2 ^ p.B + 1) = 2 ^ p.N := by
  have h1 := p.sq_le
  have h2 := p.two_pow_B_ge
  have h3 : 2 ^ p.B + 1 ≤ 2 ^ p.N := by nlinarith
  simp only [Params.P, Config.modulus]; omega

theorem Params.P_lt_two_pow_N : p.P < 2 ^ p.N := by
  have h := p.P_add; have h2 := p.two_pow_B_ge; omega

theorem Params.P_lt : p.P < 2 ^ 62 := by
  have h1 := p.P_add; have h2 := p.two_pow_N_le; have h3 := p.two_pow_B_ge; omega

/-- `P` is large: at least half of `2^N` (and more than `2^33`). -/
theorem Params.P_gt : 2 ^ 33 ≤ p.P := by
  have h1 := p.P_add; have h2 := p.sq_le; have h3 := p.two_pow_N_ge; have h4 := p.two_pow_B_ge
  have : 2 * (2 ^ p.B + 1) ≤ 2 ^ p.N := by nlinarith
  omega

theorem Params.P_pos : 0 < p.P := by have := p.P_gt; omega

theorem Params.fullMask_add : p.fullMask + 1 = 2 ^ p.N := by
  simp only [Params.fullMask, Config.fullMask]
  have := Nat.two_pow_pos p.N
  omega

/-- `FE_MAX + 1 = 2^N + MAX_EXCESS·(2^B + 1)`. -/
theorem Params.feMax_eq : p.feMax + 1 = 2 ^ p.N + (2 ^ (64 - p.N) - 1) * (2 ^ p.B + 1) := by
  have h := p.fullMask_add
  simp only [Params.fullMask] at h
  simp only [Params.feMax, Config.feMax, Config.maxExcess, Nat.shiftLeft_eq, Nat.mul_add]
  omega

theorem Params.two_P_lt : 2 * p.P < 2 ^ 63 := by have := p.P_lt; omega
theorem Params.feMax_lt : p.feMax < 2 ^ 63 := lt_of_le_of_lt p.feMax_le p.two_P_lt
theorem Params.fullMask_le_feMax : p.fullMask ≤ p.feMax := by
  have h1 := p.fullMask_add; have h2 := p.feMax_eq; omega
theorem Params.P_lt_fullMask : p.P < p.fullMask := by
  have h1 := p.P_add; have h2 := p.fullMask_add; have h3 := p.two_pow_B_ge; omega

end

/-- `2^x·2^y + 2^x + 2^y` is no power of two: its odd part is above 1. -/
theorem pow_mul_add_ne_pow {x y : Nat} (hx : 2 ≤ x) (hy : 0 < y) (n : Nat) :
    2 ^ x * 2 ^ y + 2 ^ x + 2 ^ y ≠ 2 ^ n := by
  intro h
  -- with the smaller power taken out, an odd number above 1, or twice one, would be a power of two
  have odd_ne : ∀ m : Nat, 0 < m → ∀ k : Nat, 2 * m + 1 ≠ 2 ^ k := by
    intro m hm k hk
    cases k with
    | zero => rw [pow_zero] at hk; omega
    | succ k => rw [pow_succ] at hk; omega
  have cancel : ∀ a m : Nat, 0 < m → 2 ^ a * (2 * m + 1) ≠ 2 ^ n := by
    intro a m hm hk
    have ha : a ≤ n := by
      refine (Nat.pow_le_pow_iff_right (by norm_num : 1 < 2)).1 ?_
      rw [← hk]; exact Nat.le_mul_of_pos_right _ (by omega)
    have hn : 2 ^ n = 2 ^ a * 2 ^ (n - a) := by rw [← pow_add]; congr 1; omega
    rw [hn] at hk
    exact odd_ne m hm _ (Nat.eq_of_mul_eq_mul_left (Nat.two_pow_pos a) hk)
  rcases Nat.lt_trichotomy x y with hlt | heq | hgt
  · obtain ⟨d, rfl⟩ : ∃ d, y = x + (d + 1) := ⟨y - x - 1, by omega⟩
    refine cancel x (2 ^ (x + d) + 2 ^ d) (by positivity) ?_
    rw [← h]; ring
  · subst heq
    obtain ⟨d, rfl⟩ : ∃ d, x = d + 2 := ⟨x - 2, by omega⟩
    refine cancel (d + 3) (2 ^ d) (by positivity) ?_
    rw [← h]; ring
  · obtain ⟨d, rfl⟩ : ∃ d, x = y + (d + 1) := ⟨x - y - 1, by omega⟩
    refine cancel y (2 ^ (y + d) + 2 ^ d) (by positivity) ?_
    rw [← h]; ring

/-- Under V6 the inequality is strict (glossary of 00_scope.md, "Zero element"). -/
theorem Params.feMax_lt_two_P (p : Params) : p.feMax < 2 * p.P := by
  refine lt_of_le_of_ne p.feMax_le fun h => ?_
  have h1 := p.feMax_eq
  have h2 := p.P_add
  have h3 := p.excess_ge
  refine pow_mul_add_ne_pow (x := 64 - p.N) (y := p.B) (by have := p.N_le; omega) p.B_pos p.N ?_
  obtain ⟨e, he⟩ : ∃ e, 2 ^ (64 - p.N) = e + 1 := ⟨2 ^ (64 - p.N) - 1, by omega⟩
  rw [he, Nat.add_sub_cancel] at h1
  rw [he]
  have h4 : e * (2 ^ p.B + 1) = e * 2 ^ p.B + e := by ring
  have h5 : (e + 1) * 2 ^ p.B = e * 2 ^ p.B + 2 ^ p.B := by ring
  omega

end Sys2Proof
end

