-- ==== Sys2Proof/Laws/Reduce.lean ====
section
/-! SUPPORT. One specification lemma per function of the reduction engine: `foldOnce`, `bro`, `bro128`, `rbp`,
`value` (40_reduction.md R80 to R85, 41_construct_canon.md R95). -/

namespace Sys2Proof.Machine

variable (p : Params)

/-- The split and sum, as a remainder and a quotient. -/
theorem foldOnce_eq (v : Nat) : foldOnce p v = v % 2 ^ p.N + v / 2 ^ p.N * (2 ^ p.B + 1) := by
  simp only [foldOnce, Params.fullMask, Config.fullMask, Nat.and_two_pow_sub_one_eq_mod,
    Nat.shiftRight_eq_div_pow, Nat.shiftLeft_eq]
  ring

/-- One pass takes off `v >> N` times the modulus (R81 (a)). -/
theorem foldOnce_add (v : Nat) : foldOnce p v + v / 2 ^ p.N * p.P = v := by
  have h := Nat.mod_add_div v (2 ^ p.N)
  rw [foldOnce_eq, Nat.add_assoc, ← Nat.mul_add, Nat.add_comm _ p.P, p.P_add, Nat.mul_comm]
  exact h

theorem foldOnce_mod (v : Nat) : foldOnce p v % p.P = v % p.P := by
  conv_rhs => rw [← foldOnce_add p v]
  simp

theorem foldOnce_le_self (v : Nat) : foldOnce p v ≤ v := by
  have := foldOnce_add p v; omega

theorem foldOnce_of_le {v : Nat} (h : v ≤ p.fullMask) : foldOnce p v = v := by
  have := p.fullMask_add
  rw [foldOnce_eq, Nat.mod_eq_of_lt (by omega), Nat.div_eq_of_lt (by omega)]; simp

/-- A bound on one pass from a bound on its quotient. -/
theorem foldOnce_lt_of_div {v q : Nat} (h : v / 2 ^ p.N ≤ q) :
    foldOnce p v + 1 ≤ 2 ^ p.N + q * (2 ^ p.B + 1) := by
  rw [foldOnce_eq]
  have h1 : v % 2 ^ p.N < 2 ^ p.N := Nat.mod_lt _ (Nat.two_pow_pos _)
  have h2 := Nat.mul_le_mul_right (2 ^ p.B + 1) h
  omega

/-- A once-reduced bound for every 64-bit value (R81 (b), H5). -/
theorem foldOnce_le_feMax {v : Nat} (h : v < 2 ^ 64) : foldOnce p v ≤ p.feMax := by
  have h1 : v / 2 ^ p.N < 2 ^ (64 - p.N) := by
    rw [Nat.div_lt_iff_lt_mul (Nat.two_pow_pos _), Nat.mul_comm, p.pow_mul_excess]; exact h
  have h2 := foldOnce_lt_of_div p (Nat.le_sub_one_of_lt h1)
  have h3 := p.feMax_eq
  omega

/-- Of a value up to `2P`, one pass leaves at most `FULL_MASK` (R81 (d)). -/
theorem foldOnce_le_fullMask {v : Nat} (h : v ≤ 2 * p.P) : foldOnce p v ≤ p.fullMask := by
  have hP := p.P_add
  have hF := p.fullMask_add
  have hn := Nat.two_pow_pos p.N
  rcases Nat.lt_or_ge v (2 ^ p.N) with hv | hv
  · rw [foldOnce_of_le p (by omega)]; omega
  · have hq : 1 ≤ v / 2 ^ p.N := (Nat.one_le_div_iff hn).2 hv
    have h1 := foldOnce_add p v
    have h2 : p.P ≤ v / 2 ^ p.N * p.P := Nat.le_mul_of_pos_left _ hq
    have h3 := p.two_pow_B_ge
    omega

theorem bro_toNat (v : Word) : (bro p v).toNat = foldOnce p v.toNat := by
  have h := foldOnce_le_self p v.toNat
  have := v.isLt
  simp only [bro, BitVec.toNat_ofNat]
  exact Nat.mod_eq_of_lt (by omega)

/-- `bro` keeps the residue (R81 (a)). -/
theorem bro_mod (v : Word) : (bro p v).toNat % p.P = v.toNat % p.P := by
  rw [bro_toNat, foldOnce_mod]

/-- `bro` gives a stored element, whatever the word (R81 (b)). -/
theorem bro_le_feMax (v : Word) : (bro p v).toNat ≤ p.feMax := by
  rw [bro_toNat]; exact foldOnce_le_feMax p v.isLt

/-- `bro` of a stored element is twice-reduced (R81 (d)). -/
theorem bro_le_fullMask {v : Word} (h : v.toNat ≤ p.feMax) : (bro p v).toNat ≤ p.fullMask := by
  rw [bro_toNat]; exact foldOnce_le_fullMask p (le_trans h p.feMax_le)

theorem fullMask_lt_two_P : p.fullMask < 2 * p.P :=
  lt_of_le_of_lt p.fullMask_le_feMax p.feMax_lt_two_P

theorem bro128_toNat (w : Wide) : (bro128 p w).toNat = foldOnce p w.toNat := by
  have h := foldOnce_le_self p w.toNat
  have := w.isLt
  simp only [bro128, BitVec.toNat_ofNat]
  exact Nat.mod_eq_of_lt (by omega)

/-- Every bit of `asr63(d)` is `d[63]` (R14). -/
theorem asr63_eq (d : Word) : asr63 d = if d.msb then BitVec.allOnes 64 else 0 := by
  apply BitVec.eq_of_getLsbD_eq
  intro i hi
  rw [asr63, BitVec.getLsbD_sshiftRight]
  have hi' : ¬ 64 ≤ i := by omega
  by_cases h : d.msb = true
  · simp only [h, if_true, BitVec.getLsbD_allOnes]
    rcases Nat.eq_zero_or_pos i with rfl | hpos
    · simpa [BitVec.msb_eq_getLsbD_last] using h
    · simp [hi, hi', show ¬ 63 + i < 64 by omega]
  · simp only [h]
    rcases Nat.eq_zero_or_pos i with rfl | hpos
    · simpa [BitVec.msb_eq_getLsbD_last] using h
    · simp [hi, hi', show ¬ 63 + i < 64 by omega]

/-- The select of `rbp` (R84). -/
theorem rbp_eq (v : Word) :
    rbp p v = if (v - BitVec.ofNat 64 p.P).msb then v else v - BitVec.ofNat 64 p.P := by
  simp only [rbp, asr63_eq]
  split
  · rw [BitVec.and_allOnes, BitVec.not_allOnes, BitVec.and_zero, BitVec.or_zero]
  · simp only [BitVec.ofNat_eq_ofNat, BitVec.and_zero, BitVec.not_zero, BitVec.and_allOnes, BitVec.zero_or]

/-- `rbp` on every 64-bit word (R85). -/
theorem rbp_toNat (v : Word) : (rbp p v).toNat =
    if v.toNat < p.P then v.toNat
    else if v.toNat < p.P + 2 ^ 63 then v.toNat - p.P else v.toNat := by
  have hP := p.P_lt
  have hv := v.isLt
  have hp : (BitVec.ofNat 64 p.P).toNat = p.P := by
    rw [BitVec.toNat_ofNat]; exact Nat.mod_eq_of_lt (by omega)
  have hd : (v - BitVec.ofNat 64 p.P).toNat =
      if v.toNat < p.P then v.toNat + 2 ^ 64 - p.P else v.toNat - p.P := by
    rw [BitVec.toNat_sub, hp]
    split <;> omega
  rw [rbp_eq, BitVec.msb_eq_decide]
  simp only [hd, decide_eq_true_eq]
  split_ifs with h1 h2 h3 h4 h5 <;> first | omega | rfl | (rw [hd]; split_ifs; omega)

/-- Inside its precondition `rbp` is the residue (R85). -/
theorem rbp_toNat_of_lt {v : Word} (h : v.toNat < 2 * p.P) : (rbp p v).toNat = v.toNat % p.P := by
  rw [rbp_toNat]
  split_ifs with h1 h2
  · exact (Nat.mod_eq_of_lt h1).symm
  · rw [Nat.mod_eq_sub_mod (by omega), Nat.mod_eq_of_lt (by omega)]
  · have := p.P_lt; omega

/-- The canonical value of a stored element is its residue (R95). -/
theorem value_toNat {a : Word} (h : a.toNat ≤ p.feMax) : (value p a).toNat = a.toNat % p.P := by
  rw [value, rbp_toNat_of_lt, bro_mod]
  exact lt_of_le_of_lt (bro_le_fullMask p h) (fullMask_lt_two_P p)

theorem value_lt {a : Word} (h : a.toNat ≤ p.feMax) : (value p a).toNat < p.P := by
  rw [value_toNat p h]; exact Nat.mod_lt _ p.P_pos

/-- Two stored elements have one canonical value exactly when their residues agree. -/
theorem value_eq_iff {a b : Word} (ha : a.toNat ≤ p.feMax) (hb : b.toNat ≤ p.feMax) :
    value p a = value p b ↔ a.toNat % p.P = b.toNat % p.P := by
  rw [← value_toNat p ha, ← value_toNat p hb]
  exact ⟨fun h => by rw [h], fun h => BitVec.eq_of_toNat_eq h⟩

/-- The zero test sees the residue (R136). -/
theorem isZero_iff {a : Word} (h : a.toNat ≤ p.feMax) : isZero p a = true ↔ a.toNat % p.P = 0 := by
  rw [isZero, beq_iff_eq, ← value_toNat p h]
  exact ⟨fun e => by rw [e]; rfl, fun e => BitVec.eq_of_toNat_eq e⟩

theorem maskedData_toNat (d : Word) : (maskedData p d).toNat = d.toNat % 2 ^ p.N := by
  have h : p.fullMask < 2 ^ 64 := by
    have h1 := p.fullMask_add; have h2 := p.two_pow_N_le; omega
  rw [maskedData, BitVec.toNat_and, BitVec.toNat_ofNat, Nat.mod_eq_of_lt h]
  simp only [Params.fullMask, Config.fullMask, Nat.and_two_pow_sub_one_eq_mod]

end Sys2Proof.Machine
end

