-- ==== Sys2Proof/Laws/Arith.lean ====
section
/-! SUPPORT. One specification lemma per function of the adder/subtractor, the multiplier and the exponentiator
(42_addsub.md R110 to R112, 43_multiply.md R120, R122, 44_exp_inverse.md R131): what they compute on stored
elements, as integers and as residues. -/

namespace Sys2Proof.Machine

variable (p : Params)

/-- The sum of two stored elements does not wrap (R110, H1), and one pass is taken of it. -/
theorem fadd_toNat {a b : Word} (ha : a.toNat ≤ p.feMax) (hb : b.toNat ≤ p.feMax) :
    (fadd p a b).toNat = foldOnce p (a.toNat + b.toNat) := by
  have := p.feMax_lt
  rw [fadd, bro_toNat, BitVec.toNat_add_of_lt (by omega)]

theorem fadd_mod {a b : Word} (ha : a.toNat ≤ p.feMax) (hb : b.toNat ≤ p.feMax) :
    (fadd p a b).toNat % p.P = (a.toNat + b.toNat) % p.P := by
  rw [fadd_toNat p ha hb, foldOnce_mod]

theorem fadd_le (a b : Word) : (fadd p a b).toNat ≤ p.feMax := bro_le_feMax p _

/-- `2P − a` of a stored element does not wrap (R111, V6). -/
theorem fneg_toNat {a : Word} (ha : a.toNat ≤ p.feMax) :
    (fneg p a).toNat = foldOnce p (2 * p.P - a.toNat) := by
  have h1 := p.feMax_le
  have h2 := p.two_P_lt
  have h3 := a.isLt
  have h4 : (BitVec.ofNat 64 (2 * p.P)).toNat = 2 * p.P := by
    rw [BitVec.toNat_ofNat]; exact Nat.mod_eq_of_lt (by omega)
  rw [fneg, bro_toNat, BitVec.toNat_sub, h4]
  congr 1; omega

/-- `fneg(a) + a` is a multiple of `P` (R111). -/
theorem fneg_mod {a : Word} (ha : a.toNat ≤ p.feMax) :
    ((fneg p a).toNat + a.toNat) % p.P = 0 := by
  have h1 := p.feMax_le
  rw [Nat.add_mod, fneg_toNat p ha, foldOnce_mod, ← Nat.add_mod]
  rw [show 2 * p.P - a.toNat + a.toNat = 2 * p.P by omega]
  simp

theorem fneg_le (a : Word) : (fneg p a).toNat ≤ p.feMax := bro_le_feMax p _

theorem fsub_le (a b : Word) : (fsub p a b).toNat ≤ p.feMax := bro_le_feMax p _

/-- Two passes: one after the negation, one after the addition (R112). -/
theorem fsub_toNat {a b : Word} (ha : a.toNat ≤ p.feMax) (hb : b.toNat ≤ p.feMax) :
    (fsub p a b).toNat = foldOnce p (a.toNat + foldOnce p (2 * p.P - b.toNat)) := by
  rw [fsub, fadd_toNat p ha (fneg_le p b), fneg_toNat p hb]

/-- `fsub(a, b) + b ≡ a` (R112). -/
theorem fsub_mod {a b : Word} (ha : a.toNat ≤ p.feMax) (hb : b.toNat ≤ p.feMax) :
    ((fsub p a b).toNat + b.toNat) % p.P = a.toNat % p.P := by
  rw [Nat.add_mod, fsub, fadd_mod p ha (fneg_le p b), ← Nat.add_mod, Nat.add_assoc, Nat.add_mod,
    fneg_mod p hb]
  simp

/-- The 128-bit product is exact (R120). -/
theorem wideProduct_toNat (a b : Word) : (wideProduct a b).toNat = a.toNat * b.toNat := by
  have ha := a.isLt
  have hb := b.isLt
  have h : a.toNat * b.toNat < 2 ^ 128 := by
    calc a.toNat * b.toNat < 2 ^ 64 * 2 ^ 64 := Nat.mul_lt_mul'' ha hb
      _ = 2 ^ 128 := by norm_num
  rw [wideProduct, BitVec.toNat_mul, BitVec.toNat_setWidth, BitVec.toNat_setWidth,
    Nat.mod_eq_of_lt (by omega : a.toNat < 2 ^ 128), Nat.mod_eq_of_lt (by omega : b.toNat < 2 ^ 128),
    Nat.mod_eq_of_lt h]

/-- After the second wide pass of a product of stored elements the value is below `2^64` (R122, H4). -/
theorem foldTwice_lt {w : Nat} (hle : w ≤ p.feMax * p.feMax) :
    foldOnce p (foldOnce p w) < 2 ^ 64 := by
  have hV := p.feMax_le
  have hP := p.P_add
  have hsq := p.sq_le
  have hn := p.two_pow_N_le
  have hb30 := p.two_pow_B_le
  have hb2 := p.two_pow_B_ge
  have hpos := Nat.two_pow_pos p.N
  have hw : w ≤ (4 * p.P) * 2 ^ p.N := by
    calc w ≤ (2 * p.P) * (2 * p.P) := le_trans hle (Nat.mul_le_mul hV hV)
      _ = (4 * p.P) * p.P := by ring
      _ ≤ (4 * p.P) * 2 ^ p.N := Nat.mul_le_mul_left _ (by omega)
  have hq : w / 2 ^ p.N ≤ 4 * p.P := Nat.div_le_of_le_mul (by rw [Nat.mul_comm (2 ^ p.N)]; exact hw)
  have h1 := foldOnce_lt_of_div p hq
  have hw1 : foldOnce p w / 2 ^ p.N ≤ 4 * 2 ^ p.B + 5 := by
    apply Nat.div_le_of_le_mul
    have h2 : 4 * p.P * (2 ^ p.B + 1) ≤ 4 * 2 ^ p.N * (2 ^ p.B + 1) :=
      Nat.mul_le_mul_right _ (by omega)
    have h3 : 2 ^ p.N * (4 * 2 ^ p.B + 5) = 2 ^ p.N + 4 * 2 ^ p.N * (2 ^ p.B + 1) := by ring
    omega
  have h2 := foldOnce_lt_of_div p hw1
  have h3 : (4 * 2 ^ p.B + 5) * (2 ^ p.B + 1) = 4 * (2 ^ p.B * 2 ^ p.B) + 9 * 2 ^ p.B + 5 := by ring
  omega

/-- The three passes of the multiplier lose nothing (R120). -/
theorem fmul_toNat {a b : Word} (ha : a.toNat ≤ p.feMax) (hb : b.toNat ≤ p.feMax) :
    (fmul p a b).toNat = foldOnce p (foldOnce p (foldOnce p (a.toNat * b.toNat))) := by
  simp only [fmul]
  rw [bro_toNat, BitVec.toNat_setWidth, bro128_toNat, bro128_toNat, wideProduct_toNat,
    Nat.mod_eq_of_lt (foldTwice_lt p (Nat.mul_le_mul ha hb))]

theorem fmul_mod {a b : Word} (ha : a.toNat ≤ p.feMax) (hb : b.toNat ≤ p.feMax) :
    (fmul p a b).toNat % p.P = a.toNat * b.toNat % p.P := by
  rw [fmul_toNat p ha hb, foldOnce_mod, foldOnce_mod, foldOnce_mod]

theorem fmul_le (a b : Word) : (fmul p a b).toNat ≤ p.feMax := bro_le_feMax p _

theorem one_le_feMax : (1 : Word).toNat ≤ p.feMax := by
  have h1 := p.P_gt
  have h2 := p.P_lt_fullMask
  have h3 := p.fullMask_le_feMax
  have h4 : (1 : Word).toNat = 1 := rfl
  omega

/-- What the steps `i` to `i + k − 1` of the chain compute, as residues: the accumulator is multiplied by the
base to the power `E[i+k-1 : i]`, and both scratch values stay stored elements (R131). -/
theorem chain_spec (k : Nat) : ∀ (i : Nat) (x y : Word), x.toNat ≤ p.feMax → y.toNat ≤ p.feMax →
    let r := (chainOpsFrom p k i).foldl (chainApply p) (x, y)
    r.2.toNat ≤ p.feMax ∧
      r.2.toNat % p.P = y.toNat * x.toNat ^ (exponent p / 2 ^ i % 2 ^ k) % p.P := by
  induction k with
  | zero => intro i x y _ hy; simp [chainOpsFrom, hy, Nat.mod_one]
  | succ k ih =>
    intro i x y hx hy
    have hx2 := fmul_le p x x
    -- the exponent's low bit, and the rest
    have hsplit : exponent p / 2 ^ i % 2 ^ (k + 1)
        = exponent p / 2 ^ i % 2 + 2 * (exponent p / 2 ^ (i + 1) % 2 ^ k) := by
      rw [pow_succ, Nat.mul_comm (2 ^ k) 2, Nat.mod_mul, pow_succ, Nat.div_div_eq_div_mul]
    have hbase : ∀ m, (fmul p x x).toNat ^ m % p.P = x.toNat ^ (2 * m) % p.P := by
      intro m
      rw [Nat.pow_mod, fmul_mod p hx hx, ← Nat.pow_mod, pow_mul, pow_two]
    simp only [chainOpsFrom, chainStepOps, exponentBit, Nat.testBit_eq_decide_div_mod_eq]
    rcases Nat.mod_two_eq_zero_or_one (exponent p / 2 ^ i) with h0 | h1
    · obtain ⟨hle, hmod⟩ := ih (i + 1) (fmul p x x) y hx2 hy
      refine ⟨by simpa [h0, chainApply] using hle, ?_⟩
      rw [hsplit, h0, Nat.zero_add]
      simp only [chainApply, List.foldl_append, List.foldl_cons, List.foldl_nil, hmod, if_false,
        decide_eq_true_eq, zero_ne_one]
      rw [Nat.mul_mod, hbase, ← Nat.mul_mod]
    · obtain ⟨hle, hmod⟩ := ih (i + 1) (fmul p x x) (fmul p y x) hx2 (fmul_le p y x)
      refine ⟨by simpa [h1, chainApply] using hle, ?_⟩
      rw [hsplit, h1]
      simp only [chainApply, List.foldl_append, List.foldl_cons, List.foldl_nil, hmod, if_true,
        decide_eq_true_eq]
      rw [Nat.mul_mod, hbase, fmul_mod p hy hx, ← Nat.mul_mod, pow_add x.toNat 1, pow_one, Nat.mul_assoc]

theorem exponent_lt : exponent p < 2 ^ p.N := by
  have h1 := p.P_add; have h2 := p.two_pow_B_ge
  simp only [exponent]; omega

theorem fpowPm2_le {a : Word} (ha : a.toNat ≤ p.feMax) : (fpowPm2 p a).toNat ≤ p.feMax :=
  (chain_spec p p.N 0 a 1 ha (one_le_feMax p)).1

/-- The chain computes `a^(P−2)` (R131). -/
theorem fpowPm2_mod {a : Word} (ha : a.toNat ≤ p.feMax) :
    (fpowPm2 p a).toNat % p.P = a.toNat ^ (p.P - 2) % p.P := by
  have h := (chain_spec p p.N 0 a 1 ha (one_le_feMax p)).2
  rw [pow_zero, Nat.div_one, Nat.mod_eq_of_lt (exponent_lt p)] at h
  have h1 : (1 : Word).toNat = 1 := rfl
  rw [h1, Nat.one_mul] at h
  exact h

theorem quotient_le (a b : Word) : (quotient p a b).toNat ≤ p.feMax := fmul_le p _ _

theorem quotient_mod {a b : Word} (ha : a.toNat ≤ p.feMax) (hb : b.toNat ≤ p.feMax) :
    (quotient p a b).toNat % p.P = a.toNat * b.toNat ^ (p.P - 2) % p.P := by
  rw [quotient, fmul_mod p ha (fpowPm2_le p hb), Nat.mul_mod, fpowPm2_mod p hb, ← Nat.mul_mod]

end Sys2Proof.Machine
end

