-- ==== Sys2Proof/Laws/Decode.lean ====
section
/-! SUPPORT. Decoding is a fact about the command word: the data word only fills the operand of the formats `D` and
`RD` (30_encoding.md R58). Statements about every data word reduce to finite ones about words. -/

namespace Sys2Proof

/-- The instruction with its data operand, if it has one, replaced. -/
def Instr.withData (d : Word) : Instr → Instr
  | .bro _ => .bro d
  | .rbp _ => .rbp d
  | .new rd _ => .new rd d
  | .fred rd _ => .fred rd d
  | .funb rd _ => .funb rd d
  | i => i

theorem underMask_map (f : Instr → Instr) (w m k : CmdWord) (i : Instr) :
    (underMask w m k i).map f = underMask w m k (f i) := by
  simp only [underMask]; split <;> rfl

/-- Decoding with any data word, from decoding with the data word 0. -/
theorem decode_data (w : CmdWord) (d : Word) :
    decode ⟨w, d⟩ = (decode ⟨w, 0⟩).map (Instr.withData d) := by
  simp only [decode]
  split <;> first | rfl | (rw [underMask_map]; rfl)

/-- Whether a word is legal does not depend on the data word. -/
theorem decode_error_data {w : CmdWord} {d : Word} {e : Illegal} (h : decode ⟨w, d⟩ = .error e) (d' : Word) :
    decode ⟨w, d'⟩ = .error e := by
  rw [decode_data] at h ⊢
  cases h0 : decode ⟨w, 0⟩ with
  | ok i => rw [h0] at h; cases h
  | error e' => rw [h0] at h; cases h; rfl

@[simp] theorem encode_cmd (i : Instr) : (encode i).cmd = encodeWord i := rfl
@[simp] theorem encode_data (i : Instr) : (encode i).data = encodeData i := rfl

/-- An instruction is itself with its own data word. -/
theorem withData_encodeData (i : Instr) : i.withData (encodeData i) = i := by cases i <;> rfl

@[simp] theorem divisor_withData (d : Word) (i : Instr) : (i.withData d).divisor = i.divisor := by
  cases i <;> rfl
@[simp] theorem encodeWord_withData (d : Word) (i : Instr) : encodeWord (i.withData d) = encodeWord i := by
  cases i <;> rfl

/-- The word with the given fields (R56). -/
def ofFields (op : BitVec 5) (rd rs1 rs2 : RegIdx) (z : BitVec 2) : CmdWord := op ++ rd ++ rs1 ++ rs2 ++ z

/-- A word is its fields, so a statement about all words is one about all fields. -/
theorem word_eq_ofFields (w : CmdWord) :
    w = ofFields (opcodeField w) (rdField w) (rs1Field w) (rs2Field w) (w.extractLsb' 0 2) := by
  simp only [ofFields, opcodeField, rdField, rs1Field, rs2Field]
  apply BitVec.eq_of_getLsbD_eq
  intro i hi
  simp only [BitVec.getLsbD_append, BitVec.getLsbD_extractLsb']
  split_ifs
  all_goals
    first
    | simp only [show i < 2 by omega, decide_true, Bool.true_and, Nat.zero_add]
    | (simp only [show i - 2 < 3 by omega, decide_true, Bool.true_and]; congr 1; omega)
    | (simp only [show i - 2 - 3 < 3 by omega, decide_true, Bool.true_and]; congr 1; omega)
    | (simp only [show i - 2 - 3 - 3 < 3 by omega, decide_true, Bool.true_and]; congr 1; omega)
    | (simp only [show i - 2 - 3 - 3 - 3 < 5 by omega, decide_true, Bool.true_and]; congr 1; omega)

/-- Masks act field by field. -/
theorem and_ofFields (a : BitVec 5) (b c d : RegIdx) (e : BitVec 2) (a' : BitVec 5) (b' c' d' : RegIdx)
    (e' : BitVec 2) : ofFields a b c d e &&& ofFields a' b' c' d' e'
      = ofFields (a &&& a') (b &&& b') (c &&& c') (d &&& d') (e &&& e') := by
  change (a ++ b ++ c ++ d ++ e : BitVec (5 + 3 + 3 + 3 + 2)) &&& (a' ++ b' ++ c' ++ d' ++ e') = _
  rw [BitVec.and_append, BitVec.and_append, BitVec.and_append, BitVec.and_append]
  rfl

/-- A word has one set of fields. -/
theorem ofFields_inj {a a' : BitVec 5} {b c d b' c' d' : RegIdx} {e e' : BitVec 2} :
    ofFields a b c d e = ofFields a' b' c' d' e' ↔ a = a' ∧ b = b' ∧ c = c' ∧ d = d' ∧ e = e' := by
  constructor
  · intro h
    simp only [ofFields] at h
    have h5 := congrArg (BitVec.extractLsb' 0 2) h
    rw [BitVec.extractLsb'_append_eq_right, BitVec.extractLsb'_append_eq_right] at h5
    subst h5; rw [BitVec.append_left_inj] at h
    have h4 := congrArg (BitVec.extractLsb' 0 3) h
    rw [BitVec.extractLsb'_append_eq_right, BitVec.extractLsb'_append_eq_right] at h4
    subst h4; rw [BitVec.append_left_inj] at h
    have h3 := congrArg (BitVec.extractLsb' 0 3) h
    rw [BitVec.extractLsb'_append_eq_right, BitVec.extractLsb'_append_eq_right] at h3
    subst h3; rw [BitVec.append_left_inj] at h
    have h2 := congrArg (BitVec.extractLsb' 0 3) h
    rw [BitVec.extractLsb'_append_eq_right, BitVec.extractLsb'_append_eq_right] at h2
    subst h2; rw [BitVec.append_left_inj] at h
    exact ⟨h, rfl, rfl, rfl, rfl⟩
  · rintro ⟨rfl, rfl, rfl, rfl, rfl⟩; rfl

/-- The decoder's fields read the fields back. -/
theorem fields_ofFields (a : BitVec 5) (b c d : RegIdx) (e : BitVec 2) :
    opcodeField (ofFields a b c d e) = a ∧ rdField (ofFields a b c d e) = b ∧
    rs1Field (ofFields a b c d e) = c ∧ rs2Field (ofFields a b c d e) = d ∧
    (ofFields a b c d e).extractLsb' 0 2 = e :=
  ofFields_inj.1 (word_eq_ofFields (ofFields a b c d e)).symm

/-- `match | rd << 8 | rs1 << 5 | rs2 << 2` is the word with these fields (R59). -/
theorem commandWord_eq (op : BitVec 5) (rd rs1 rs2 : RegIdx) :
    commandWord (ofFields op 0 0 0 0) rd rs1 rs2 = ofFields op rd rs1 rs2 0 := by
  apply BitVec.eq_of_getLsbD_eq
  intro i hi
  simp only [commandWord, ofFields, BitVec.getLsbD_or, BitVec.getLsbD_append, BitVec.getLsbD_shiftLeft, BitVec.getLsbD_setWidth]
  have h16 : i < 16 := hi
  interval_cases i <;> simp

/-- The mask comparison of R57 and R59, field by field: `m1`, `m2`, `m3` are 7 for a field the format does not use, 0 for
one it uses. -/
theorem masked_iff (w : CmdWord) (op : BitVec 5) (m1 m2 m3 : RegIdx) :
    w &&& ofFields 31 m1 m2 m3 3 = ofFields op 0 0 0 0 ↔ opcodeField w = op ∧ rdField w &&& m1 = 0 ∧
      rs1Field w &&& m2 = 0 ∧ rs2Field w &&& m3 = 0 ∧ w.extractLsb' 0 2 = 0 := by
  conv_lhs => rw [word_eq_ofFields w]
  rw [and_ofFields, ofFields_inj, show (31 : BitVec 5) = BitVec.allOnes 5 from rfl, show (3 : BitVec 2) = BitVec.allOnes 2 from rfl,
    BitVec.and_allOnes, BitVec.and_allOnes]

/-- What an accepted mask comparison says of the fields. -/
theorem underMask_ok {w m k : CmdWord} {i j : Instr} (op : BitVec 5) (m1 m2 m3 : RegIdx)
    (hm : m = ofFields 31 m1 m2 m3 3) (hk : k = ofFields op 0 0 0 0) (h : underMask w m k i = .ok j) :
    j = i ∧ opcodeField w = op ∧ rdField w &&& m1 = 0 ∧ rs1Field w &&& m2 = 0 ∧
      rs2Field w &&& m3 = 0 ∧ w.extractLsb' 0 2 = 0 := by
  subst hm hk
  simp only [underMask] at h
  split at h
  · next hh => cases h; exact ⟨rfl, (masked_iff _ _ _ _ _).1 hh⟩
  · cases h

/-- A word with these fields is the word `commandWord` builds from them. -/
theorem commandWord_of_fields {w k : CmdWord} {op : BitVec 5} {a b c : RegIdx} (hk : k = ofFields op 0 0 0 0)
    (h : opcodeField w = op) (h1 : rdField w = a) (h2 : rs1Field w = b) (h3 : rs2Field w = c)
    (h0 : w.extractLsb' 0 2 = 0) : commandWord k a b c = w := by
  rw [hk, commandWord_eq]
  conv_rhs => rw [word_eq_ofFields w, h, h1, h2, h3, h0]

end Sys2Proof
end

