-- ==== Sys2Proof/Laws/State.lean ====
section
/-! SUPPORT. One lemma per field and update of State, and the register file's read-after-write laws. -/

namespace Sys2Proof.Machine

section
variable (s : State) (r : RegIdx) (v : Word) (b : Bool) (c : FaultCause) (w : CmdWord)
  (p : CoreParams) (k : Command) (l : List HostEvent)

@[simp] theorem setReg_build : (s.setReg r v).build = s.build := rfl
@[simp] theorem setReg_params : (s.setReg r v).params = s.params := rfl
@[simp] theorem setReg_dout : (s.setReg r v).dout = s.dout := rfl
@[simp] theorem setReg_status : (s.setReg r v).status = s.status := rfl
@[simp] theorem setReg_fcmd : (s.setReg r v).fcmd = s.fcmd := rfl
@[simp] theorem setReg_inputs : (s.setReg r v).inputs = s.inputs := rfl

@[simp] theorem setDout_build : (s.setDout v).build = s.build := rfl
@[simp] theorem setDout_params : (s.setDout v).params = s.params := rfl
@[simp] theorem setDout_f : (s.setDout v).f = s.f := rfl
@[simp] theorem setDout_dout : (s.setDout v).dout = v := rfl
@[simp] theorem setDout_status : (s.setDout v).status = s.status := rfl
@[simp] theorem setDout_fcmd : (s.setDout v).fcmd = s.fcmd := rfl
@[simp] theorem setDout_inputs : (s.setDout v).inputs = s.inputs := rfl

@[simp] theorem setOk_build : (s.setOk b).build = s.build := rfl
@[simp] theorem setOk_params : (s.setOk b).params = s.params := rfl
@[simp] theorem setOk_f : (s.setOk b).f = s.f := rfl
@[simp] theorem setOk_dout : (s.setOk b).dout = s.dout := rfl
@[simp] theorem setOk_status : (s.setOk b).status = statusSetOk b s.status := rfl
@[simp] theorem setOk_fcmd : (s.setOk b).fcmd = s.fcmd := rfl
@[simp] theorem setOk_inputs : (s.setOk b).inputs = s.inputs := rfl

@[simp] theorem setEq_build : (s.setEq b).build = s.build := rfl
@[simp] theorem setEq_params : (s.setEq b).params = s.params := rfl
@[simp] theorem setEq_f : (s.setEq b).f = s.f := rfl
@[simp] theorem setEq_dout : (s.setEq b).dout = s.dout := rfl
@[simp] theorem setEq_status : (s.setEq b).status = statusSetEq b s.status := rfl
@[simp] theorem setEq_fcmd : (s.setEq b).fcmd = s.fcmd := rfl
@[simp] theorem setEq_inputs : (s.setEq b).inputs = s.inputs := rfl

@[simp] theorem raiseFault_build : (raiseFault c w s).build = s.build := rfl
@[simp] theorem raiseFault_params : (raiseFault c w s).params = s.params := rfl
@[simp] theorem raiseFault_f : (raiseFault c w s).f = s.f := rfl
@[simp] theorem raiseFault_dout : (raiseFault c w s).dout = s.dout := rfl
@[simp] theorem raiseFault_status : (raiseFault c w s).status = statusSetFault c s.status := rfl
@[simp] theorem raiseFault_fcmd : (raiseFault c w s).fcmd = w := rfl
@[simp] theorem raiseFault_inputs : (raiseFault c w s).inputs = s.inputs := rfl

@[simp] theorem resetAt_build : (State.resetAt p).build = p := rfl
@[simp] theorem resetAt_params : (State.resetAt p).params = p.toParams := rfl
@[simp] theorem resetAt_dout : (State.resetAt p).dout = 0 := rfl
@[simp] theorem resetAt_status : (State.resetAt p).status = 0 := rfl
@[simp] theorem resetAt_fcmd : (State.resetAt p).fcmd = 0 := rfl
@[simp] theorem resetAt_inputs : (State.resetAt p).inputs = [] := rfl

@[simp] theorem applyReset_build : (applyReset l s).build = s.build := rfl
@[simp] theorem applyReset_params : (applyReset l s).params = s.params := rfl
@[simp] theorem applyReset_f : (applyReset l s).f = (State.resetAt s.build).f := rfl
@[simp] theorem applyReset_dout : (applyReset l s).dout = 0 := rfl
@[simp] theorem applyReset_status : (applyReset l s).status = 0 := rfl
@[simp] theorem applyReset_fcmd : (applyReset l s).fcmd = 0 := rfl
@[simp] theorem applyReset_inputs : (applyReset l s).inputs = l := rfl

@[simp] theorem offerNext_build : (offerNext k s).build = s.build := rfl
@[simp] theorem offerNext_params : (offerNext k s).params = s.params := rfl
@[simp] theorem offerNext_f : (offerNext k s).f = s.f := rfl
@[simp] theorem offerNext_dout : (offerNext k s).dout = s.dout := rfl
@[simp] theorem offerNext_status : (offerNext k s).status = s.status := rfl
@[simp] theorem offerNext_fcmd : (offerNext k s).fcmd = s.fcmd := rfl
@[simp] theorem offerNext_inputs : (offerNext k s).inputs = .command k :: s.inputs := rfl

end

/-- A register reads its content in `f`. -/
theorem reg_congr (s t : State) (r : RegIdx) (h : s.f = t.f) : s.reg r = t.reg r := by
  simp only [State.reg, h]

@[simp] theorem params_withInputs (s : State) (l : List HostEvent) :
    ({ s with inputs := l } : State).params = s.params := rfl
@[simp] theorem reg_withInputs (s : State) (l : List HostEvent) (r : RegIdx) :
    ({ s with inputs := l } : State).reg r = s.reg r := rfl
@[simp] theorem reg_setDout (s : State) (v : Word) (r : RegIdx) : (s.setDout v).reg r = s.reg r := rfl
@[simp] theorem reg_setOk (s : State) (b : Bool) (r : RegIdx) : (s.setOk b).reg r = s.reg r := rfl
@[simp] theorem reg_setEq (s : State) (b : Bool) (r : RegIdx) : (s.setEq b).reg r = s.reg r := rfl
@[simp] theorem reg_raiseFault (s : State) (c : FaultCause) (w : CmdWord) (r : RegIdx) :
    (raiseFault c w s).reg r = s.reg r := rfl
@[simp] theorem reg_offerNext (s : State) (c : Command) (r : RegIdx) : (offerNext c s).reg r = s.reg r := rfl

/-- Read after write to the same register. -/
@[simp] theorem reg_setReg_same (s : State) (r : RegIdx) (v : Word) : (s.setReg r v).reg r = v := by
  simp [State.reg, State.setReg]

/-- A write leaves every other register. -/
theorem reg_setReg_other (s : State) {r q : RegIdx} (v : Word) (h : q ≠ r) :
    (s.setReg r v).reg q = s.reg q := by
  have : r.toNat ≠ q.toNat := fun e => h (BitVec.eq_of_toNat_eq e.symm)
  simp [State.reg, State.setReg, Vector.getElem_set_ne, this]

/-- Both laws in one. -/
theorem reg_setReg (s : State) (r q : RegIdx) (v : Word) :
    (s.setReg r v).reg q = if q = r then v else s.reg q := by
  split
  · next h => subst h; simp
  · next h => exact reg_setReg_other s v h

/-- Every register reads 0 after reset (R34). -/
@[simp] theorem reg_resetAt (p : CoreParams) (r : RegIdx) : (State.resetAt p).reg r = 0 := by
  simp [State.reg, State.resetAt]

@[simp] theorem reg_applyReset (s : State) (l : List HostEvent) (r : RegIdx) :
    (applyReset l s).reg r = 0 := reg_resetAt s.build r

/-- Two states with the same registers and the same other fields are equal. -/
theorem State.ext_reg {s t : State} (hb : s.build = t.build) (hf : ∀ r, s.reg r = t.reg r)
    (hd : s.dout = t.dout) (hs : s.status = t.status) (hc : s.fcmd = t.fcmd)
    (hi : s.inputs = t.inputs) : s = t := by
  have hv : s.f = t.f := by
    apply Vector.ext
    intro i hi
    have := hf (BitVec.ofNat 3 i)
    simpa [State.reg, Nat.mod_eq_of_lt hi] using this
  cases s; cases t; simp_all

end Sys2Proof.Machine
end

