-- ==== Sys2Proof/Laws/Flags.lean ====
section
/-! SUPPORT. What each write of `STATUS` does to each of its fields (10_state.md R26, R28). -/

namespace Sys2Proof.Machine

section
variable (b : Bool) (c : FaultCause) (st : BitVec 8)

@[simp] theorem ok_setOk : statusOk (statusSetOk b st) = b := by
  revert b st; decide +kernel
@[simp] theorem eq_setOk : statusEq (statusSetOk b st) = statusEq st := by
  revert b st; decide +kernel
@[simp] theorem fault_setOk : statusFault (statusSetOk b st) = statusFault st := by
  revert b st; decide +kernel
@[simp] theorem cause_setOk : statusCause (statusSetOk b st) = statusCause st := by
  revert b st; decide +kernel
@[simp] theorem zero_setOk : statusZero (statusSetOk b st) = statusZero st := by
  revert b st; decide +kernel

@[simp] theorem ok_setEq : statusOk (statusSetEq b st) = statusOk st := by
  revert b st; decide +kernel
@[simp] theorem eq_setEq : statusEq (statusSetEq b st) = b := by
  revert b st; decide +kernel
@[simp] theorem fault_setEq : statusFault (statusSetEq b st) = statusFault st := by
  revert b st; decide +kernel
@[simp] theorem cause_setEq : statusCause (statusSetEq b st) = statusCause st := by
  revert b st; decide +kernel
@[simp] theorem zero_setEq : statusZero (statusSetEq b st) = statusZero st := by
  revert b st; decide +kernel

@[simp] theorem ok_setFault : statusOk (statusSetFault c st) = statusOk st := by
  cases c <;> revert st <;> decide +kernel
@[simp] theorem eq_setFault : statusEq (statusSetFault c st) = statusEq st := by
  cases c <;> revert st <;> decide +kernel
@[simp] theorem fault_setFault : statusFault (statusSetFault c st) = true := by
  cases c <;> revert st <;> decide +kernel
@[simp] theorem cause_setFault : statusCause (statusSetFault c st) = c.code := by
  cases c <;> revert st <;> decide +kernel
@[simp] theorem zero_setFault : statusZero (statusSetFault c st) = statusZero st := by
  cases c <;> revert st <;> decide +kernel

end

@[simp] theorem ok_zero : statusOk 0#8 = false := by decide
@[simp] theorem eq_zero : statusEq 0#8 = false := by decide
@[simp] theorem fault_zero : statusFault 0#8 = false := by decide
@[simp] theorem cause_zero : statusCause 0#8 = 0 := by decide
@[simp] theorem zero_zero : statusZero 0#8 = 0 := by decide

/-- `STATUS` is its fields. -/
theorem status_ext {a b : BitVec 8} (h0 : statusOk a = statusOk b) (h1 : statusEq a = statusEq b)
    (h2 : statusFault a = statusFault b) (h3 : statusCause a = statusCause b)
    (h5 : statusZero a = statusZero b) : a = b := by
  have key : ∀ v : BitVec 8, v = (statusZero v ++ statusCause v ++ BitVec.ofBool (statusFault v) ++
      BitVec.ofBool (statusEq v) ++ BitVec.ofBool (statusOk v)) := by decide +kernel
  rw [key a, key b, h0, h1, h2, h3, h5]

@[simp] theorem okFlag_setOk (s : State) (b : Bool) : (s.setOk b).okFlag = b := by simp [State.okFlag]
@[simp] theorem eqFlag_setEq (s : State) (b : Bool) : (s.setEq b).eqFlag = b := by simp [State.eqFlag]
@[simp] theorem faultFlag_setOk (s : State) (b : Bool) : (s.setOk b).faultFlag = s.faultFlag := by
  simp [State.faultFlag]
@[simp] theorem faultFlag_setEq (s : State) (b : Bool) : (s.setEq b).faultFlag = s.faultFlag := by
  simp [State.faultFlag]
@[simp] theorem faultFlag_setReg (s : State) (r : RegIdx) (v : Word) :
    (s.setReg r v).faultFlag = s.faultFlag := rfl
@[simp] theorem faultFlag_setDout (s : State) (v : Word) : (s.setDout v).faultFlag = s.faultFlag := rfl
@[simp] theorem okFlag_setReg (s : State) (r : RegIdx) (v : Word) : (s.setReg r v).okFlag = s.okFlag := rfl
@[simp] theorem faultFlag_raiseFault (s : State) (c : FaultCause) (w : CmdWord) :
    (raiseFault c w s).faultFlag = true := by simp [State.faultFlag]
@[simp] theorem cause_raiseFault (s : State) (c : FaultCause) (w : CmdWord) :
    (raiseFault c w s).cause = c.code := by simp [State.cause]
@[simp] theorem faultFlag_applyReset (s : State) (l : List HostEvent) :
    (applyReset l s).faultFlag = false := by simp [State.faultFlag]
@[simp] theorem faultFlag_offerNext (s : State) (c : Command) : (offerNext c s).faultFlag = s.faultFlag := rfl

/-- `STATUS` stays legal under every write of it (R28). -/
theorem statusLegal_setOk {st : BitVec 8} (b : Bool) (h : StatusLegal st) : StatusLegal (statusSetOk b st) := by
  simpa [StatusLegal] using h
theorem statusLegal_setEq {st : BitVec 8} (b : Bool) (h : StatusLegal st) : StatusLegal (statusSetEq b st) := by
  simpa [StatusLegal] using h
theorem statusLegal_setFault {st : BitVec 8} (c : FaultCause) (h : statusZero st = 0) :
    StatusLegal (statusSetFault c st) := by
  cases c <;> simp [StatusLegal, h, FaultCause.code]

end Sys2Proof.Machine
end

