-- ==== Sys2Proof/Laws/Exec.lean ====
section
/-! SUPPORT. Once and for all: what a command, an accepted pair and a step can do. Later proofs cite these instead
of unfolding the meanings. -/

namespace Sys2Proof.Machine

theorem storeChecked_of_lt {rd : RegIdx} {m : Word} {s : State} (h : m.toNat < s.params.P) :
    storeChecked rd m s = (s.setReg rd m).setOk true := by simp [storeChecked, h]

theorem storeChecked_of_not_lt {rd : RegIdx} {m : Word} {s : State} (h : ¬ m.toNat < s.params.P) :
    storeChecked rd m s = s.setOk false := by simp [storeChecked, h]

theorem unlessZero_of_zero {b v : Word} {w : CmdWord} {rd : RegIdx} {s : State}
    (h : isZero s.params b = true) :
    unlessZero b w rd v s = .next (raiseFault .zeroDivisor w s) := by simp [unlessZero, h]

theorem unlessZero_of_nonzero {b v : Word} {w : CmdWord} {rd : RegIdx} {s : State}
    (h : isZero s.params b = false) : unlessZero b w rd v s = .next (s.setReg rd v) := by
  simp [unlessZero, h]

/-- The value a command writes to its destination register when it writes one (R23): for `FRED` and `FUNB` the
checked word. -/
def writeValue (i : Instr) (s : State) : Word :=
  match i with
  | .new _ d => bro s.params d
  | .fred _ d => d
  | .funb _ d => maskedData s.params d
  | .mov _ a => s.reg a
  | .add _ a b => fadd s.params (s.reg a) (s.reg b)
  | .neg _ a => fneg s.params (s.reg a)
  | .sub _ a b => fsub s.params (s.reg a) (s.reg b)
  | .mul _ a b => fmul s.params (s.reg a) (s.reg b)
  | .recip _ a => fpowPm2 s.params (s.reg a)
  | .div _ a b => quotient s.params (s.reg a) (s.reg b)
  | .rem _ a b => fsub s.params (s.reg a) (quotient s.params (s.reg a) (s.reg b))
  | .bro _ | .rbp _ | .val _ | .eq _ _ => 0

/-- Everything a command can do: one write of `DOUT`, one register write, a checked write with `OK`, a rejected
word, one write of `EQ`, or the fault of a zero divisor. -/
inductive Effect (i : Instr) (s t : State) : Prop where
  | dout (v : Word) (h : (∃ d, i = .bro d) ∨ (∃ d, i = .rbp d) ∨ ∃ a, i = .val a) (e : t = s.setDout v)
  | register (rd : RegIdx) (hd : i.dest = some rd) (hn : ∀ d, i ≠ .fred rd d ∧ i ≠ .funb rd d)
      (hz : ∀ a, i.divisor = some a → isZero s.params (s.reg a) = false)
      (e : t = s.setReg rd (writeValue i s))
  | accepted (rd : RegIdx) (d : Word) (h : i = .fred rd d ∨ i = .funb rd d)
      (lt : (writeValue i s).toNat < s.params.P) (e : t = (s.setReg rd (writeValue i s)).setOk true)
  | rejected (rd : RegIdx) (d : Word) (h : i = .fred rd d ∨ i = .funb rd d)
      (ge : ¬ (writeValue i s).toNat < s.params.P) (e : t = s.setOk false)
  | compared (b : Bool) (a c : RegIdx) (h : i = .eq a c) (e : t = s.setEq b)
  | zeroDivisor (a : RegIdx) (hd : i.divisor = some a) (hz : isZero s.params (s.reg a) = true)
      (e : t = raiseFault .zeroDivisor (encodeWord i) s)

/-- Every command answers a next state, and it is one of the effects above. -/
theorem exec_effect (i : Instr) (s : State) : ∃ t, exec i s = .next t ∧ Effect i s t := by
  have checked : ∀ rd d, (i = .fred rd d ∨ i = .funb rd d) →
      ∃ t, (.next (storeChecked rd (writeValue i s) s) : Result) = .next t ∧ Effect i s t := by
    intro rd d h
    by_cases lt : (writeValue i s).toNat < s.params.P
    · exact ⟨_, rfl, .accepted rd d h lt (storeChecked_of_lt lt)⟩
    · exact ⟨_, rfl, .rejected rd d h lt (storeChecked_of_not_lt lt)⟩
  have guarded : ∀ rd a, i.dest = some rd → i.divisor = some a →
      (∀ d, i ≠ .fred rd d ∧ i ≠ .funb rd d) →
      ∃ t, unlessZero (s.reg a) (encodeWord i) rd (writeValue i s) s = .next t ∧ Effect i s t := by
    intro rd a hd hv hn
    cases hz : isZero s.params (s.reg a) with
    | true => exact ⟨_, unlessZero_of_zero hz, .zeroDivisor a hv hz rfl⟩
    | false =>
      refine ⟨_, unlessZero_of_nonzero hz, .register rd hd hn (fun q hq => ?_) rfl⟩
      obtain rfl : a = q := Option.some.inj (hv.symm.trans hq)
      exact hz
  cases i with
  | bro d => exact ⟨_, rfl, .dout _ (.inl ⟨d, rfl⟩) rfl⟩
  | rbp d => exact ⟨_, rfl, .dout _ (.inr (.inl ⟨d, rfl⟩)) rfl⟩
  | val a => exact ⟨_, rfl, .dout _ (.inr (.inr ⟨a, rfl⟩)) rfl⟩
  | fred rd d => exact checked rd d (.inl rfl)
  | funb rd d => exact checked rd d (.inr rfl)
  | eq a c => exact ⟨_, rfl, .compared _ a c rfl rfl⟩
  | new rd d => exact ⟨_, rfl, .register rd rfl (by simp) (by simp [Instr.divisor]) rfl⟩
  | mov rd a => exact ⟨_, rfl, .register rd rfl (by simp) (by simp [Instr.divisor]) rfl⟩
  | add rd a b => exact ⟨_, rfl, .register rd rfl (by simp) (by simp [Instr.divisor]) rfl⟩
  | neg rd a => exact ⟨_, rfl, .register rd rfl (by simp) (by simp [Instr.divisor]) rfl⟩
  | sub rd a b => exact ⟨_, rfl, .register rd rfl (by simp) (by simp [Instr.divisor]) rfl⟩
  | mul rd a b => exact ⟨_, rfl, .register rd rfl (by simp) (by simp [Instr.divisor]) rfl⟩
  | recip rd a => exact guarded rd a rfl rfl (by simp)
  | div rd a b => exact guarded rd b rfl rfl (by simp)
  | rem rd a b => exact guarded rd b rfl rfl (by simp)

theorem exec_cases {i : Instr} {s t : State} (h : exec i s = .next t) : Effect i s t := by
  obtain ⟨u, hu, he⟩ := exec_effect i s
  rw [hu] at h
  cases h
  exact he

/-- The value written is a stored element when the registers hold stored elements. -/
theorem writeValue_le (i : Instr) (s : State) (h : s.Stored) (hn : ∀ rd d, i ≠ .fred rd d ∧ i ≠ .funb rd d) :
    (writeValue i s).toNat ≤ s.params.feMax := by
  cases i with
  | new rd d => exact bro_le_feMax _ d
  | fred rd d => exact absurd rfl (hn rd d).1
  | funb rd d => exact absurd rfl (hn rd d).2
  | mov rd a => exact h a
  | add rd a b => exact fadd_le _ _ _
  | neg rd a => exact fneg_le _ _
  | sub rd a b => exact fsub_le _ _ _
  | mul rd a b => exact fmul_le _ _ _
  | recip rd a => exact fpowPm2_le _ (h a)
  | div rd a b => exact quotient_le _ _ _
  | rem rd a b => exact fsub_le _ _ _
  | bro d => exact Nat.zero_le _
  | rbp d => exact Nat.zero_le _
  | val a => exact Nat.zero_le _
  | eq a b => exact Nat.zero_le _

/-- An accepted pair: its instruction's effect, or the fault of an illegal word. -/
theorem runCommand_ok {c : Command} {i : Instr} (h : decode c = .ok i) (s : State) :
    runCommand c s = exec i s := by simp [runCommand, h]

theorem runCommand_error {c : Command} {e : Illegal} (h : decode c = .error e) (s : State) :
    runCommand c s = .next (raiseFault .illegalCommand c.cmd s) := by simp [runCommand, h]

theorem runCommand_next (c : Command) (s : State) : ∃ t, runCommand c s = .next t := by
  cases h : decode c with
  | ok i => obtain ⟨t, ht, -⟩ := exec_effect i s; exact ⟨t, by rw [runCommand_ok h, ht]⟩
  | error e => exact ⟨_, runCommand_error h s⟩

/-- The step by the host's next event. -/
theorem step_reset {s : State} {rest : List HostEvent} (h : s.inputs = .reset :: rest) :
    step s = .next (applyReset rest s) := by simp [step, stepPort, h]

theorem step_command {s : State} {c : Command} {rest : List HostEvent}
    (h : s.inputs = .command c :: rest) (hf : s.faultFlag = false) :
    step s = runCommand c { s with inputs := rest } := by simp [step, stepPort, h, offerCommand, hf]

theorem step_wait {s : State} (h : s.inputs = []) (hf : s.faultFlag = false) : step s = .next s := by
  simp [step, stepPort, h, waitOrStuck, hf]

theorem step_halted {s : State} (hf : s.faultFlag = true) (h : ∀ rest, s.inputs ≠ .reset :: rest) :
    step s = .fault .halted := by
  rcases hs : s.inputs with - | ⟨c | -, rest⟩
  · simp [step, stepPort, hs, waitOrStuck, hf]
  · simp [step, stepPort, hs, offerCommand, hf]
  · exact absurd hs (h rest)

/-- Everything a step that answers a next state can be. -/
theorem step_cases {s t : State} (h : step s = .next t) :
    (s.inputs = [] ∧ s.faultFlag = false ∧ t = s) ∨
    (∃ rest, s.inputs = .reset :: rest ∧ t = applyReset rest s) ∨
    (∃ c rest, s.inputs = .command c :: rest ∧ s.faultFlag = false ∧
      runCommand c { s with inputs := rest } = .next t) := by
  rcases hs : s.inputs with - | ⟨c | -, rest⟩
  · cases hf : s.faultFlag with
    | true => rw [step_halted hf (by simp [hs])] at h; cases h
    | false => rw [step_wait hs hf] at h; cases h; exact .inl ⟨rfl, rfl, rfl⟩
  · cases hf : s.faultFlag with
    | true => rw [step_halted hf (by simp [hs])] at h; cases h
    | false => rw [step_command hs hf] at h; exact .inr (.inr ⟨c, rest, rfl, rfl, h⟩)
  · rw [step_reset hs] at h; cases h; exact .inr (.inl ⟨rest, rfl, rfl⟩)

/-- An offered command runs on the core as it stands, if the core is not halted. -/
theorem step_offerNext (c : Command) (s : State) (hf : s.faultFlag = false) :
    step (offerNext c s) = runCommand c s := by
  rw [step_command (offerNext_inputs s c) (by simpa using hf)]; rfl

/-- A halted core takes no step but reset. -/
theorem running_of_step {s t : State} (h : step s = .next t) (hn : ∀ rest, s.inputs ≠ .reset :: rest) :
    s.faultFlag = false := by
  rcases step_cases h with ⟨-, hf, -⟩ | ⟨rest, hs, -⟩ | ⟨-, -, -, hf, -⟩
  · exact hf
  · exact absurd hs (hn rest)
  · exact hf

/-- A run of the machine, one step at a time. -/
@[simp] theorem run_zero (s : State) : Host.Core.run Sys2Proof.core 0 s = .next s := rfl

theorem run_of_next {s t : State} (k : Nat) (h : step s = .next t) :
    Host.Core.run Sys2Proof.core (k + 1) s = Host.Core.run Sys2Proof.core k t := by
  have h' : Sys2Proof.core.step s = .next t := h
  simp only [Host.Core.run, h']

theorem run_of_fault {s : State} {r : Fault} (k : Nat) (h : step s = .fault r) :
    Host.Core.run Sys2Proof.core (k + 1) s = .fault r := by
  have h' : Sys2Proof.core.step s = .fault r := h
  simp only [Host.Core.run, h']

end Sys2Proof.Machine
end

