-- ==== Sys2Proof/Laws/Frames.lean ====
section
/-! SUPPORT. The frames of Safety.lean hold of the updates they are named after, and the spec's exact pass is the
engine's. -/

namespace Sys2Proof.Machine

/-- `reduceOnce`, the spec's formula, is the fold the engine computes (R80). -/
theorem reduceOnce_eq (p : Params) (v : Nat) : reduceOnce p v = foldOnce p v := by
  rw [foldOnce_eq, reduceOnce]; ring

theorem getLsbD_setOk (b : Bool) (st : BitVec 8) {k : Nat} (h : k ≠ 0) :
    (statusSetOk b st).getLsbD k = st.getLsbD k := by
  by_cases hk : k < 8
  · interval_cases k <;> first | omega | (revert st b; decide +kernel)
  · simp [BitVec.getLsbD_of_ge _ _ (by omega : 8 ≤ k)]

theorem getLsbD_setEq (b : Bool) (st : BitVec 8) {k : Nat} (h : k ≠ 1) :
    (statusSetEq b st).getLsbD k = st.getLsbD k := by
  by_cases hk : k < 8
  · interval_cases k <;> first | omega | (revert st b; decide +kernel)
  · simp [BitVec.getLsbD_of_ge _ _ (by omega : 8 ≤ k)]

theorem setReg_onlyRegister (s : State) (rd : RegIdx) (v : Word) : OnlyRegister rd s (s.setReg rd v) :=
  ⟨fun _ h => reg_setReg_other s v h, rfl, rfl, rfl, rfl, rfl⟩

theorem setDout_onlyDout (s : State) (v : Word) : OnlyDout s (s.setDout v) :=
  ⟨fun _ => rfl, rfl, rfl, rfl, rfl⟩

theorem setOk_onlyOkFlag (s : State) (b : Bool) : OnlyOkFlag s (s.setOk b) :=
  ⟨fun _ => rfl, rfl, fun _ h => getLsbD_setOk b s.status h, rfl, rfl, rfl⟩

theorem setReg_setOk_only (s : State) (rd : RegIdx) (v : Word) (b : Bool) :
    OnlyOkFlagAndRegister rd s ((s.setReg rd v).setOk b) :=
  ⟨fun _ h => reg_setReg_other s v h, rfl, fun _ h => getLsbD_setOk b s.status h, rfl, rfl, rfl⟩

theorem setEq_onlyEqFlag (s : State) (b : Bool) : OnlyEqFlag s (s.setEq b) :=
  ⟨fun _ => rfl, rfl, fun _ h => getLsbD_setEq b s.status h, rfl, rfl, rfl⟩

theorem raiseFault_entered (c : FaultCause) (w : CmdWord) (s : State) :
    FaultEntered c.code w s (raiseFault c w s) :=
  ⟨by simp, by simp, rfl, fun _ => rfl, rfl, by simp [State.okFlag], by simp [State.eqFlag], by simp, rfl,
    rfl⟩

end Sys2Proof.Machine
end

