-- ==== Sys2Proof/Laws/PerInstr.lean ====
section
/-! SUPPORT. Family `WordFields`: the word of every instruction passes the field checks of WellFormed.lean, and its
destination field is the register the instruction writes (30_encoding.md R56, R57, R61). -/

namespace Sys2Proof.Laws.WordFields

/-- The instruction's word is well formed, and `rd` stands in bits 10:8 (000 where the command writes no register). -/
def Statement (i : Instr) : Prop :=
  (CmdFields.ofWord (encodeWord i)).wellFormed = true ∧ rdField (encodeWord i) = i.dest.getD 0

theorem bro (d : Word) : Statement (.bro d) := by
  have h : (CmdFields.ofWord (commandWord 0x0800 0 0 0)).wellFormed = true ∧
      rdField (commandWord 0x0800 0 0 0) = 0 := by decide +kernel
  exact h
theorem rbp (d : Word) : Statement (.rbp d) := by
  have h : (CmdFields.ofWord (commandWord 0x1000 0 0 0)).wellFormed = true ∧
      rdField (commandWord 0x1000 0 0 0) = 0 := by decide +kernel
  exact h
theorem new (rd : RegIdx) (d : Word) : Statement (.new rd d) := by
  have h : ∀ rd : RegIdx, (CmdFields.ofWord (commandWord 0x1800 rd 0 0)).wellFormed = true ∧
      rdField (commandWord 0x1800 rd 0 0) = rd := by decide +kernel
  exact h rd
theorem fred (rd : RegIdx) (d : Word) : Statement (.fred rd d) := by
  have h : ∀ rd : RegIdx, (CmdFields.ofWord (commandWord 0x2000 rd 0 0)).wellFormed = true ∧
      rdField (commandWord 0x2000 rd 0 0) = rd := by decide +kernel
  exact h rd
theorem funb (rd : RegIdx) (d : Word) : Statement (.funb rd d) := by
  have h : ∀ rd : RegIdx, (CmdFields.ofWord (commandWord 0x2800 rd 0 0)).wellFormed = true ∧
      rdField (commandWord 0x2800 rd 0 0) = rd := by decide +kernel
  exact h rd
theorem val (rs1 : RegIdx) : Statement (.val rs1) := by
  unfold Statement; revert rs1; decide +kernel
theorem mov (rd rs1 : RegIdx) : Statement (.mov rd rs1) := by
  unfold Statement; revert rd rs1; decide +kernel
theorem add (rd rs1 rs2 : RegIdx) : Statement (.add rd rs1 rs2) := by
  unfold Statement; revert rd rs1 rs2; decide +kernel
theorem neg (rd rs1 : RegIdx) : Statement (.neg rd rs1) := by
  unfold Statement; revert rd rs1; decide +kernel
theorem sub (rd rs1 rs2 : RegIdx) : Statement (.sub rd rs1 rs2) := by
  unfold Statement; revert rd rs1 rs2; decide +kernel
theorem mul (rd rs1 rs2 : RegIdx) : Statement (.mul rd rs1 rs2) := by
  unfold Statement; revert rd rs1 rs2; decide +kernel
theorem recip (rd rs1 : RegIdx) : Statement (.recip rd rs1) := by
  unfold Statement; revert rd rs1; decide +kernel
theorem div (rd rs1 rs2 : RegIdx) : Statement (.div rd rs1 rs2) := by
  unfold Statement; revert rd rs1 rs2; decide +kernel
theorem rem (rd rs1 rs2 : RegIdx) : Statement (.rem rd rs1 rs2) := by
  unfold Statement; revert rd rs1 rs2; decide +kernel
theorem eq (rs1 rs2 : RegIdx) : Statement (.eq rs1 rs2) := by
  unfold Statement; revert rs1 rs2; decide +kernel

end Sys2Proof.Laws.WordFields
end

