-- ==== Sys2Proof/Tests/Slice0.lean ====
section
/-! SUPPORT. Tests. Expected results come from 95_test_vectors.md and 96_test_vectors_arith.md (instantiations A and
B of 00_scope.md R13) or are written out by hand from the encodings of 30_encoding.md. The witnesses at the end show,
for every statement with hypotheses, concrete data that meet them, clause by clause. -/

namespace Sys2Proof.Tests

open Sys2Proof Sys2Proof.Machine

set_option Elab.async false

/-! ### Well-formedness: one ill-formed word for each check -/

/-- Opcode 0x10: unassigned. -/
theorem test_wf_opcode : (CmdFields.ofWord 0x8000).opcodeAssigned = false ∧
    (CmdFields.ofWord 0x8000).wellFormed = false := by decide
/-- `ADD` with bits 1:0 = 10 (95, section 2.5). -/
theorem test_wf_zero : (CmdFields.ofWord 0x432a).zeroClear = false ∧
    (CmdFields.ofWord 0x432a).wellFormed = false := by decide
/-- `VAL` with rd = 1 (95, section 2.5). -/
theorem test_wf_rd : (CmdFields.ofWord 0x3100).rdClear = false ∧
    (CmdFields.ofWord 0x3100).wellFormed = false := by decide
/-- `NEW` with rs1 = 1 (95, section 2.5). -/
theorem test_wf_rs1 : (CmdFields.ofWord 0x1820).rs1Clear = false ∧
    (CmdFields.ofWord 0x1820).wellFormed = false := by decide
/-- `RECIP` with rs2 = 1 (95, section 2.5). -/
theorem test_wf_rs2 : (CmdFields.ofWord 0x6004).rs2Clear = false ∧
    (CmdFields.ofWord 0x6004).wellFormed = false := by decide
theorem test_wf_legal : (CmdFields.ofWord 0x4328).wellFormed = true := by decide

/-! ### Decoding: each command's word, bit by bit from R56, R57 and R59: opcode, rd, rs1, rs2, 00 -/

theorem test_decode_bro : decode ⟨0b00001_000_000_000_00, 9⟩ = .ok (.bro 9) := by decide
theorem test_decode_rbp : decode ⟨0b00010_000_000_000_00, 9⟩ = .ok (.rbp 9) := by decide
theorem test_decode_new : decode ⟨0b00011_111_000_000_00, 9⟩ = .ok (.new 7 9) := by decide
theorem test_decode_fred : decode ⟨0b00100_101_000_000_00, 9⟩ = .ok (.fred 5 9) := by decide
theorem test_decode_funb : decode ⟨0b00101_110_000_000_00, 9⟩ = .ok (.funb 6 9) := by decide
theorem test_decode_val : decode ⟨0b00110_000_011_000_00, 9⟩ = .ok (.val 3) := by decide
theorem test_decode_mov : decode ⟨0b00111_111_001_000_00, 9⟩ = .ok (.mov 7 1) := by decide
theorem test_decode_add : decode ⟨0b01000_011_001_010_00, 9⟩ = .ok (.add 3 1 2) := by decide
theorem test_decode_neg : decode ⟨0b01001_110_011_000_00, 9⟩ = .ok (.neg 6 3) := by decide
theorem test_decode_sub : decode ⟨0b01010_001_100_101_00, 9⟩ = .ok (.sub 1 4 5) := by decide
theorem test_decode_mul : decode ⟨0b01011_101_110_111_00, 9⟩ = .ok (.mul 5 6 7) := by decide
theorem test_decode_recip : decode ⟨0b01100_110_001_000_00, 9⟩ = .ok (.recip 6 1) := by decide
theorem test_decode_div : decode ⟨0b01101_010_000_001_00, 9⟩ = .ok (.div 2 0 1) := by decide
theorem test_decode_rem : decode ⟨0b01110_100_000_001_00, 9⟩ = .ok (.rem 4 0 1) := by decide
theorem test_decode_eq : decode ⟨0b01111_000_110_001_00, 9⟩ = .ok (.eq 6 1) := by decide

/-- The illegal words of 95, section 2.5, each under its name. -/
theorem test_illegal_words :
    ([0x0000, 0xffff, 0x8000].map fun w => decode ⟨w, 0⟩) = List.replicate 3 (.error .unassignedOpcode) ∧
    ([0x0801, 0x0900, 0x1004, 0x1820, 0x3100, 0x3004, 0x3804, 0x432a, 0x4804, 0x6004, 0x7900, 0x7fff].map
      fun w => decode ⟨w, 0⟩) = List.replicate 12 (.error .reservedBits) := by decide

/-- The encoder against the words of programs P3 to P5 of 95. -/
theorem test_encode_words :
    encodeWord (.sub 2 0 1) = 0x5204 ∧ encodeWord (.mul 3 0 3) = 0x5b0c ∧ encodeWord (.add 4 4 5) = 0x4494 ∧
    encodeWord (.recip 6 6) = 0x66c0 ∧ encodeWord (.rem 4 0 1) = 0x7404 ∧ encodeWord (.div 3 1 0) = 0x6b20 ∧
    encodeWord (.eq 6 1) = 0x78c4 ∧ encode (.funb 1 5) = ⟨0x2900, 5⟩ := by decide

/-- The host's numbering: the command word is bits 15:0, the data word starts at bit 16. -/
theorem test_table_word :
    decodeTableWord 16 0x4328 = some (.add 3 1 2) ∧
    decodeTableWord 80 (0x1900 + 7 * 2 ^ 16) = some (.new 1 7) ∧ decodeTableWord 16 0x432a = none := by decide

/-! ### The effect of each command -/

/-- A running core with `f1 = a`, `f2 = b`, all else as after reset. -/
def core (c : CoreParams) (a b : Word) : State := ((State.resetAt c).setReg 1 a).setReg 2 b

/-- Something read off the next state, if there is one. -/
def after {α : Type} (r : Result) (g : State → α) : Option α :=
  match r with
  | .next s => some (g s)
  | .fault _ => none
  | .refused _ => none

/-- The machine stops with a fault. -/
def stops (r : Result) : Bool :=
  match r with
  | .next _ => false
  | .fault .halted => true
  | .refused _ => false

abbrev A : Params := Config.reference
abbrev B : Params := Config.second
/-- Cores of the two instantiations. -/
abbrev coreA : CoreParams := Config.referenceCore
abbrev coreB : CoreParams := Config.secondCore

/-- 95, section 2.1: the largest word gives `FE_MAX`. -/
theorem test_bro_largest_word : after (exec (.bro 0xffffffffffffffff) (core coreA 0 0)) (·.dout)
    = some 0x40000000c0000002 := by decide +kernel
/-- 95, section 2.1, instantiation B. -/
theorem test_bro_wide_excess : after (exec (.bro 0xdeadbeefcafebabe) (core coreB 0 0)) (·.dout)
    = some 0x00000010b797558c := by decide +kernel
/-- 95, section 2.1: the largest input with `d[63] = 0`. -/
theorem test_rbp_sign_clear : after (exec (.rbp 0xbfffffffbffffffe) (core coreA 0 0)) (·.dout)
    = some 0x7fffffffffffffff := by decide +kernel
/-- 95, section 2.1: one more and the word itself comes back. -/
theorem test_rbp_sign_set : after (exec (.rbp 0xbfffffffbfffffff) (core coreA 0 0)) (·.dout)
    = some 0xbfffffffbfffffff := by decide +kernel
/-- 95, section 2.2. -/
theorem test_new_two_pow_62 : after (exec (.new 0 0x4000000000000000) (core coreA 0 0)) (·.reg 0)
    = some 0x0000000040000001 := by decide +kernel
/-- 95, section 2.3: `P` is rejected, the register and the other flags stay. -/
theorem test_fred_rejects_P : after (exec (.fred 1 0x3fffffffbfffffff) (core coreA 7 0))
    (fun s => (s.reg 1, s.status)) = some (7, 0x00) := by decide +kernel
/-- 95, section 2.3: `P − 1` is the largest accepted. -/
theorem test_fred_accepts_P_minus_1 : after (exec (.fred 1 0x3fffffffbffffffe) (core coreA 7 0))
    (fun s => (s.reg 1, s.status)) = some (0x3fffffffbffffffe, 0x01) := by decide +kernel
/-- 95, section 2.3: the top bits are dropped. -/
theorem test_funb_masks : after (exec (.funb 1 0xffffffffbffffffe) (core coreA 7 0))
    (fun s => (s.reg 1, s.status)) = some (0x3fffffffbffffffe, 0x01) := by decide +kernel
/-- 95, section 2.3: masked to `P + 1`, rejected. -/
theorem test_funb_rejects : after (exec (.funb 1 0xffffffffc0000000) (core coreA 7 0))
    (fun s => (s.reg 1, s.status)) = some (7, 0x00) := by decide +kernel
/-- 95, section 2.2: `FE_MAX` is canonicalised, the register keeps its content. -/
theorem test_val_fe_max : after (exec (.val 1) (core coreA 0x40000000c0000002 0)) (fun s => (s.dout, s.reg 1))
    = some (0x0000000100000003, 0x40000000c0000002) := by decide +kernel
/-- R100: the content is copied, not re-reduced. -/
theorem test_mov_keeps_content : after (exec (.mov 7 1) (core coreA 0x40000000c0000002 0)) (·.reg 7)
    = some 0x40000000c0000002 := by decide +kernel
/-- 95, section 2.4: the two zero elements are equal. -/
theorem test_eq_zero_elements : after (exec (.eq 1 2) (core coreA 0 0x3fffffffbfffffff)) (·.status)
    = some 0x02 := by decide +kernel
/-- 96, section 1. -/
theorem test_add_fe_max : after (exec (.add 3 1 2) (core coreA 0x40000000c0000002 0x40000000c0000002)) (·.reg 3)
    = some 0x0000000200000006 := by decide +kernel
/-- 96, section 1, with the destination a source. -/
theorem test_add_in_place : after (exec (.add 1 1 2) (core coreA 0x3fffffffbffffffe 1)) (·.reg 1)
    = some 0x3fffffffbfffffff := by decide +kernel
/-- 96, section 1: the negation of 0 has content `P`. -/
theorem test_neg_zero : after (exec (.neg 3 1) (core coreA 0 0)) (·.reg 3)
    = some 0x3fffffffbfffffff := by decide +kernel
/-- 96, section 1: the largest content. -/
theorem test_neg_fe_max : after (exec (.neg 3 1) (core coreA 0x40000000c0000002 0)) (·.reg 3)
    = some 0x3ffffffebffffffc := by decide +kernel
/-- 96, section 1. -/
theorem test_sub_order : after (exec (.sub 3 1 2) (core coreA 5 7)) (·.reg 3)
    = some 0x3fffffffbffffffd := by decide +kernel
/-- 96, section 1. -/
theorem test_sub_fe_max : after (exec (.sub 3 1 2) (core coreA 0x40000000c0000002 0)) (·.reg 3)
    = some 0x0000000100000003 := by decide +kernel
/-- 96, section 2: the largest operands. -/
theorem test_mul_fe_max : after (exec (.mul 3 1 2) (core coreA 0x40000000c0000002 0x40000000c0000002)) (·.reg 3)
    = some 0x000000070000000d := by decide +kernel
/-- 96, section 2, instantiation B: the second wide pass does real work. -/
theorem test_mul_wide_excess : after (exec (.mul 3 1 2) (core coreB 0x000000078ae147a5 0x00000010b797558c)) (·.reg 3)
    = some 0x0000000aed8dfbae := by decide +kernel
/-- 96, section 3, with the destination the source. -/
theorem test_recip_in_place : after (exec (.recip 1 1) (core coreA 0x0123456789abcdef 0)) (·.reg 1)
    = some 0x094739168da8a0d3 := by decide +kernel
/-- 95, section 2.5: `recip f0, f1` with `f1 = 0`. -/
theorem test_recip_zero : after (exec (.recip 0 1) (core coreA 0 0)) (fun s => (s.status, s.fcmd, s.reg 0))
    = some (0x14, 0x6020, 0) := by decide +kernel
/-- 96, section 3: 7 / 3. -/
theorem test_div_seven_thirds : after (exec (.div 3 1 2) (core coreA 7 3)) (·.reg 3)
    = some 0x1555555540000002 := by decide +kernel
/-- 95, P5: a divisor of content `P` faults; `EQ` and the registers stay. -/
theorem test_div_by_P : after (exec (.div 3 2 1) ((core coreA 0x3fffffffbfffffff 7).setEq true))
    (fun s => (s.status, s.fcmd, s.reg 3, s.dout)) = some (0x16, 0x6b44, 0, 0) := by decide +kernel
/-- 96, section 3: 7 − 7/3. -/
theorem test_rem_seven_three : after (exec (.rem 3 1 2) (core coreA 7 3)) (·.reg 3)
    = some 0x2aaaaaaa80000004 := by decide +kernel
/-- 96, section 3, instantiation B. -/
theorem test_rem_wide_excess : after (exec (.rem 3 1 2) (core coreB 0x00000010b797558c 0x000000078ae147a5)) (·.reg 3)
    = some 0x000000062d0ef64e := by decide +kernel

/-- 96, section 4: the chain after step 5 of `fpow_pm2(2)`, instantiation A, and the last step of B. -/
theorem test_chain_trace :
    (chainOpsFrom A 6 0).foldl (chainApply A) (2, 1) = (0x0000000100000004, 0x2000000000000000) ∧
    (chainOps B).foldl (chainApply B) (2, 1) = (0x0000000000040000, 0x00000007fffffff8) := by decide +kernel

/-! ### The port -/

/-- 95, P6: the illegal word `0x4329`. -/
theorem test_step_illegal : after (step (offerNext ⟨0x4329, 0⟩ (core coreA 1 0))) (fun s => (s.status, s.fcmd, s.reg 3))
    = some (0x0c, 0x4329, 0) := by decide +kernel
/-- R171: a halted core takes no command. -/
theorem test_step_halted :
    stops (step (offerNext ⟨0x4328, 0⟩ (raiseFault .zeroDivisor 0x6b20 (core coreA 1 2)))) = true := by
  decide +kernel
/-- R171, R190: reset leaves the halted state. -/
theorem test_step_reset :
    after (step (resetNext (raiseFault .zeroDivisor 0x6b20 (core coreA 1 2)))) (fun s => s)
      = some (State.resetAt coreA) := by decide +kernel
/-- `withFetchWord` offers the command, and the very next step runs it. -/
theorem test_withFetchWord :
    after (step (State.reset.withFetchWord 80 (0x1900 + 5 * 2 ^ 16))) (fun s => (s.reg 1, s.inputs))
      = some (5, []) := by decide +kernel

/-! ### Host sequences and assembler -/

/-- 95, P2: sharing the secret 0 with one rejected draw. -/
theorem test_share_zero :
    (match runShare 1 2 0 [0xffffffffffffffff, 0x123456789abcdef0, 3] (State.resetAt coreA) with
      | .done s rest => some (s.reg 1, s.reg 2, rest)
      | _ => none) = some (0x123456789abcdef0, 0x2dcba9872543210f, [3]) := by decide +kernel
/-- 95, P2, P6, P5 and R70: lines and their commands. -/
theorem test_assemble :
    assemble A "sub f2, f0, f1".toList = .command ⟨0x5204, 0⟩ ∧
    assemble A " new  f0,#0x5 ; five".toList = .command ⟨0x1800, 5⟩ ∧
    assemble A ".word 0x4329".toList = .command ⟨0x4329, 0⟩ ∧
    assemble A "fred f0, #P-1".toList = .command ⟨0x2000, 0x3fffffffbffffffe⟩ ∧
    assemble A "add f8, f0, f1".toList = .malformed ∧ assemble A "; nothing".toList = .blank := by
  decide +kernel

/-! ### Witnesses: data that meet the hypotheses of the statements -/

/-- Arithmetic parameters, of no core (their `P` is composite): `B = 1`, and the smallest `B` above 2. -/
def low1 : Params := ⟨62, 1, by decide⟩
def low3 : Params := ⟨62, 3, by decide⟩

/-- Contents at the boundary: `FE_MAX` and `P` (a zero element). -/
abbrev edge : State := core coreA 0x40000000c0000002 0x3fffffffbfffffff
/-- Halted cores, by either fault. -/
abbrev haltedIllegal : State := raiseFault .illegalCommand 0x4329 edge
abbrev haltedZero : State := raiseFault .zeroDivisor 0x6b40 edge

theorem edge_stored : edge.Stored ∧ edge.faultFlag = false := by decide +kernel
theorem edge_inv : edge.Inv := ⟨by decide +kernel, by decide +kernel, fun _ => rfl⟩
theorem haltedZero_inv : haltedZero.Inv :=
  ⟨by decide +kernel, by decide +kernel, fun h => absurd h (by decide +kernel)⟩

theorem witness_LegalWordIsItsOneEncoding : decode ⟨0x7ffc, 0⟩ = .error .reservedBits ∧
    decode ⟨0x78fc, 0⟩ = .ok (.eq 7 7) := by decide

theorem witness_LegalWordsAreTheRowsOfTheMap :
    (∃ row ∈ opcodeTable, (0x57fc#16) &&& row.mask = row.matchWord) ∧
    ¬ ∃ row ∈ opcodeTable, (0x57fd#16) &&& row.mask = row.matchWord := by decide

theorem witness_ReservedBitsAreIllegalAndCounted :
    (offerNext ⟨0x432a, 0⟩ edge).inputs = .command ⟨0x432a, 0⟩ :: [] ∧
    (offerNext ⟨0x432a, 0⟩ edge).faultFlag = false ∧
    (CmdFields.ofWord 0x432a).opcodeAssigned = true ∧ (CmdFields.ofWord 0x432a).zeroClear = false ∧
    (CmdFields.ofWord 0x3100).opcodeAssigned = true ∧ (CmdFields.ofWord 0x3100).rdClear = false ∧
    (CmdFields.ofWord 0x1820).opcodeAssigned = true ∧ (CmdFields.ofWord 0x1820).rs1Clear = false ∧
    (CmdFields.ofWord 0x6004).opcodeAssigned = true ∧ (CmdFields.ofWord 0x6004).rs2Clear = false := by
  decide +kernel

/-- The last word of opcode 0x00, the first of 0x10 and the last of 0x1F. -/
theorem witness_UnassignedOpcodesAreIllegal :
    (0x07ff#16).toNat / 2048 = 0 ∧ 0x10 ≤ (0x8000#16).toNat / 2048 ∧ 0x10 ≤ (0xffff#16).toNat / 2048 ∧
    (0x7fff#16).toNat / 2048 = 0x0f ∧ edge.faultFlag = false := by decide +kernel

/-- The first word of opcode 0x06, on a running and on a halted core. -/
theorem witness_RegisterCommandsIgnoreTheDataWord : 6 * 2048 ≤ (0x3000#16).toNat ∧
    after (step (offerNext ⟨0x3000, 1⟩ edge)) (·.dout) = some 0 ∧
    stops (step (offerNext ⟨0x3000, 1⟩ haltedZero)) = true := by decide +kernel

theorem witness_BroWritesTheReducedWord : (0x3fffffffffffffff#64).toNat ≤ edge.params.fullMask ∧
    ¬ (0x4000000000000000#64).toNat ≤ edge.params.fullMask := by decide

/-- Each clause at both its ends: `2P − 1`, `2P`, `P + 2^63 − 1`, `P + 2^63`. -/
theorem witness_RbpOnEveryDataWord :
    (0x7fffffff7ffffffd#64).toNat < 2 * edge.params.P ∧ 2 * edge.params.P ≤ (0x7fffffff7ffffffe#64).toNat ∧
    (0x7fffffff7ffffffe#64).toNat < edge.params.P + 2 ^ 63 ∧
    (0xbfffffffbffffffe#64).toNat < edge.params.P + 2 ^ 63 ∧
    edge.params.P + 2 ^ 63 ≤ (0xbfffffffbfffffff#64).toNat := by decide

theorem witness_BroPassesShrinkAndKeepResidues :
    (0x3fffffffffffffff#64).toNat ≤ A.fullMask ∧ (0x40000000c0000002#64).toNat ≤ A.feMax := by decide

theorem witness_FredStoresOnlyReducedWords : (0x3fffffffbffffffe#64).toNat < edge.params.P ∧
    edge.params.P ≤ (0x3fffffffbfffffff#64).toNat := by decide

theorem witness_FunbMasksAndChecks :
    (0xffffffffbffffffe#64).toNat % 2 ^ edge.params.N < edge.params.P ∧
    edge.params.P ≤ (0x3fffffffbfffffff#64).toNat % 2 ^ edge.params.N := by decide

/-- `Stored` with the largest content and with both zero elements: the premise of the statements on `VAL`, `EQ`,
`ADD`, `NEG`, `SUB`, `MUL`, and the clauses on a zero element and on one canonical operand. -/
theorem witness_arithmetic : edge.Stored ∧ (edge.reg 0).toNat % edge.params.P = 0 ∧
    (edge.reg 2).toNat % edge.params.P = 0 ∧ (core coreA 0 0x3fffffffbffffffe).Stored ∧
    ((core coreA 0 0x3fffffffbffffffe).reg 2).toNat < A.P := by decide +kernel

theorem witness_ConstructionRoundTrips :
    (0x3fffffffbffffffe#64).toNat < edge.params.P ∧ edge.params.P ≤ (0x3fffffffbfffffff#64).toNat ∧
    after (exec (.funb 1 0xffffffffbffffffe) edge) (·.okFlag) = some true ∧
    (edge.reg 1).toNat ≤ edge.params.feMax := by decide +kernel

/-- Three stored contents for the laws, the chain, the zero test and the multiplier's widths. -/
theorem witness_contents : (0x40000000c0000002#64).toNat ≤ A.feMax ∧ (0x3fffffffbfffffff#64).toNat ≤ A.feMax ∧
    (0#64).toNat ≤ A.feMax ∧ isZero A 0 = true ∧ isZero A 0x3fffffffbfffffff = true ∧
    isZero A 0x40000000c0000002 = false := by decide +kernel

/-- `B = 1` and `B = 3`, with bits on both sides of each exception. -/
theorem witness_ExponentBitPattern : low1.B = 1 ∧ 3 ≤ low3.B ∧ 3 ≤ A.B ∧
    exponentBit low1 1 = true ∧ exponentBit low1 2 = false ∧ exponentBit low1 3 = true ∧
    exponentBit low3 1 = false ∧ exponentBit low3 2 = true ∧ exponentBit low3 3 = false := by decide +kernel

theorem witness_ChainOperationCounts : 3 ≤ A.B ∧ (chainOps low1).length = 2 * 62 - 1 := by decide +kernel

/-- A nonzero divisor, and both zero elements as divisors. -/
theorem witness_inverse : edge.Stored ∧ (edge.reg 1).toNat % edge.params.P ≠ 0 ∧
    (edge.reg 0).toNat % edge.params.P = 0 ∧ (edge.reg 2).toNat % edge.params.P = 0 ∧
    (edge.reg 2).toNat ≠ 0 := by decide +kernel

theorem witness_InversionAndDivisionAreConsistent :
    B.PrimeModulus ∧ (0x000000110fffffee#64).toNat ≤ B.feMax ∧ isZero B 0x000000110fffffee = false ∧
    (core coreB 5 0x000000110fffffee).Stored ∧
    ((core coreB 5 0x000000110fffffee).reg 2).toNat % (core coreB 5 0x000000110fffffee).params.P ≠ 0 ∧
    (3 : RegIdx) ≠ 2 :=
  ⟨second_prime, by decide, by decide +kernel, by decide +kernel, by decide +kernel, by decide⟩

/-- Both instantiations of R13 are cores. -/
theorem witness_CoresAreExactlyTheValidPairs : coreA.N = 62 ∧ coreA.B = 30 ∧ coreB.N = 36 ∧ coreB.B = 4 ∧
    Config.Valid 62 30 ∧ Config.Valid 36 4 := ⟨rfl, rfl, rfl, rfl, coreA.valid, coreB.valid⟩

theorem witness_StepRunsTheDecodedCommand :
    (offerNext ⟨0x4328, 0⟩ edge).inputs = .command ⟨0x4328, 0⟩ :: [] ∧
    (offerNext ⟨0x4328, 0⟩ edge).faultFlag = false ∧ decode ⟨0x4328, 0⟩ = .ok (.add 3 1 2) := by decide +kernel

theorem witness_EveryPairHasAnEffectWhileRunning : edge.faultFlag = false := by decide +kernel

/-- The clauses: a step that sets `FAULT` by each cause, an illegal word, and a zero divisor of content `P`. -/
theorem witness_FaultsAreExactlyTheTwoOfTheSpec :
    after (step (offerNext ⟨0x4329, 0⟩ edge)) (·.faultFlag) = some true ∧
    decode ⟨0x4329, 0⟩ = .error .reservedBits ∧
    after (step (offerNext ⟨0x6b28, 0⟩ edge)) (·.faultFlag) = some true ∧
    decode ⟨0x6b28, 0⟩ = .ok (.div 3 1 2) ∧ (Instr.div 3 1 2).divisor = some 2 ∧
    isZero edge.params (edge.reg 2) = true := by decide +kernel

theorem witness_HaltedCoreTakesOnlyReset : haltedZero.faultFlag = true ∧ haltedZero.inputs = [] ∧
    (offerNext ⟨0x4328, 0⟩ haltedZero).faultFlag = true ∧
    after (step (resetNext haltedZero)) (·.faultFlag) = some false := by decide +kernel

/-- Reset next in a halted core; and a step of a core that meets the invariant, with no reset next. -/
theorem witness_ResetLeavesTheResetState : (resetNext haltedZero).inputs = .reset :: [] ∧
    (offerNext ⟨0x4328, 0⟩ edge).Inv ∧
    after (step (offerNext ⟨0x4328, 0⟩ edge)) (·.reg 3) = some 0x0000000100000003 ∧
    ∀ rest, (offerNext ⟨0x4328, 0⟩ edge).inputs ≠ .reset :: rest :=
  ⟨rfl, ⟨by decide +kernel, by decide +kernel, fun _ => rfl⟩, by decide +kernel, by simp [offerNext]⟩

theorem witness_WaitingCoreKeepsItsState : edge.inputs = [] ∧ edge.faultFlag = false ∧
    haltedZero.inputs = [] ∧ haltedZero.faultFlag = true := by decide +kernel

/-- Steps that change `OK`, and `EQ`. -/
theorem witness_FlagsHaveOneWriterEach : edge.okFlag = false ∧ edge.eqFlag = false ∧
    after (step (offerNext ⟨0x2000, 5⟩ edge)) (·.okFlag) = some true ∧
    after (step (offerNext ⟨0x7808, 0⟩ edge)) (·.eqFlag) = some true := by decide +kernel

/-- Steps that change `DOUT`, by each of its writers. -/
theorem witness_DoutIsWrittenByThreeCommands : edge.dout = 0 ∧
    after (step (offerNext ⟨0x0800, 5⟩ edge)) (·.dout) = some 5 ∧
    after (step (offerNext ⟨0x1000, 5⟩ edge)) (·.dout) = some 5 ∧
    after (step (offerNext ⟨0x3020, 5⟩ edge)) (·.dout) = some 0x0000000100000003 := by decide +kernel

/-- Two states that agree on the sources of `MOV f3, f1` only; and a fault, with a destination. -/
theorem witness_CommandsReadSourcesAndWriteDestination :
    (core coreA 5 6).params = (core coreA 5 7).params ∧ (core coreA 5 6).reg 1 = (core coreA 5 7).reg 1 ∧
    (core coreA 5 6).reg 2 ≠ (core coreA 5 7).reg 2 ∧ (Instr.mov 3 1).sources = [1] ∧ (Instr.mov 3 1).dest = some 3 ∧
    after (exec (.mov 3 1) (core coreA 5 6)) (·.reg 3) = some 5 ∧
    after (exec (.recip 3 2) edge) (·.faultFlag) = some true ∧
    after (exec (.fred 1 0x3fffffffbfffffff) edge) (·.okFlag) = some false := by decide +kernel

theorem witness_StepKeepsTheInvariantOfTheCore : edge.Inv ∧ haltedZero.Inv ∧
    after (step edge) (·.reg 1) = some 0x40000000c0000002 := ⟨edge_inv, haltedZero_inv, by decide +kernel⟩

/-- Both causes recorded, and a step from each kind of state. -/
theorem witness_FaultRegistersNameTheCulprit : haltedIllegal.FaultRecorded ∧ haltedZero.FaultRecorded ∧
    haltedIllegal.cause = 1 ∧ haltedZero.cause = 2 ∧
    after (step (resetNext haltedZero)) (·.cause) = some 0 := by
  refine ⟨⟨fun _ => ⟨.reservedBits, by decide⟩, fun h => ?_⟩, ⟨fun h => ?_, fun _ => ?_⟩, ?_⟩
  · exact absurd h (by decide +kernel)
  · exact absurd h (by decide +kernel)
  · exact ⟨.div 3 2 0, by decide, by decide⟩
  · decide +kernel

/-- The contents 0 and `P`, indistinguishable and different; a run of one step, and a halted run. -/
theorem witness_RepresentativesAreUnobservable :
    Indistinguishable (core coreA 0 5) (core coreA 0x3fffffffbfffffff 5) ∧
    (core coreA 0 5).Stored ∧ (core coreA 0x3fffffffbfffffff 5).Stored ∧
    (core coreA 0 5).reg 1 ≠ (core coreA 0x3fffffffbfffffff 5).reg 1 ∧
    after (step (offerNext ⟨0x4328, 0⟩ (core coreA 0 5))) (·.reg 3) = some 5 ∧
    stops (step haltedZero) = true :=
  ⟨⟨rfl, by decide +kernel, rfl, rfl, rfl, rfl⟩, by decide +kernel, by decide +kernel, by decide +kernel,
    by decide +kernel, by decide +kernel⟩

theorem witness_RepeatedDataMovementChangesNothing :
    after (exec (.mov 3 1) edge) (·.reg 3) = some 0x40000000c0000002 ∧ (3 : RegIdx) ≠ 1 ∧
    after (exec (.fred 1 0x3fffffffbfffffff) edge) (·.okFlag) = some false := by decide +kernel

/-- A list that ends well, and one that ends in the halted state. -/
theorem witness_CommandListsEndWellOrStuck :
    (offerNext ⟨0x4328, 0⟩ edge).inputs = ([⟨0x4328, 0⟩] : List Command).map .command ∧
    after (step (offerNext ⟨0x4328, 0⟩ edge)) (fun t => (t.inputs, t.faultFlag)) = some ([], false) ∧
    (offerNext ⟨0x4329, 0⟩ edge).inputs = ([⟨0x4329, 0⟩] : List Command).map .command ∧
    after (step (offerNext ⟨0x4329, 0⟩ edge)) (fun t => (t.inputs, t.faultFlag)) = some ([], true) := by
  decide +kernel

theorem witness_StepKeepsParametersAndOrder :
    after (step (offerNext ⟨0x4328, 0⟩ edge)) (·.inputs) = some [] := by decide +kernel

/-- Draws at the boundary: `P` and `FULL_MASK` are rejected, `P − 1` is accepted; distinct registers; a stored
secret. The premises of the three host sequences. -/
theorem witness_sequences : edge.faultFlag = false ∧ edge.Stored ∧
    (∀ x : Word, x ∈ ([0x3fffffffbfffffff, 0xffffffffffffffff] : List Word) →
      edge.params.P ≤ x.toNat % 2 ^ edge.params.N) ∧
    (0xffffffffbffffffe#64).toNat % 2 ^ edge.params.N < edge.params.P ∧ (3 : RegIdx) ≠ 1 ∧ (3 : RegIdx) ≠ 4 := by
  refine ⟨edge_stored.2, edge_stored.1, fun x hx => ?_, by decide, by decide, by decide⟩
  simp only [List.mem_cons, List.not_mem_nil, or_false] at hx
  rcases hx with rfl | rfl <;> decide

/-- Rejected draws only: one list that is empty and one that is not. -/
theorem witness_RejectedDrawsKeepTheLoopRunning :
    (match runRandom 3 [] edge with
      | .drawing t => some (t.reg 3, t.okFlag)
      | _ => none) = some (0, false) ∧
    (match runRandom 1 [0x3fffffffbfffffff, 0xffffffffffffffff] (edge.setOk true) with
      | .drawing t => some (t.reg 1, t.okFlag)
      | _ => none) = some (0, false) := by decide +kernel

theorem witness_PseudoInstructionsExpandAsStated : (255#64).toNat ≤ 255 ∧ ¬ (256#64).toNat ≤ 255 := by decide

theorem witness_HeadroomOfEveryInstantiation : A.feMax * A.feMax ≤ A.feMax * A.feMax ∧
    2 ^ 64 - 1 < 2 ^ 64 ∧ A.feMax ≤ A.feMax := ⟨le_refl _, by decide, le_refl _⟩

end Sys2Proof.Tests
end

section
/-! The obligations of 00_scope.md: parameters and headroom (R9, R11, R13), what a step keeps (R19, R34, R46), and
how a command list ends (R19, R171, R172). -/

namespace Sys2Proof

/-- `FE_MAX` with its shift written as a product (R8). -/
theorem Config.feMax_eq (N B : Nat) :
    Config.feMax N B = 2 ^ N - 1 + (2 ^ (64 - N) - 1) * 2 ^ B + (2 ^ (64 - N) - 1) := by
  simp only [Config.feMax, Config.fullMask, Config.maxExcess, Nat.shiftLeft_eq]

/-- R9 with the derived constants of R8 written out. -/
theorem Config.valid_iff (N B : Nat) : Config.Valid N B ↔
    N % 2 = 0 ∧ (34 ≤ N ∧ N ≤ 62) ∧ (0 < B ∧ B < N / 2) ∧ B ≠ 2 ∧ (2 ^ N - 2 ^ B - 1).Prime ∧
      2 ^ N - 1 + (2 ^ (64 - N) - 1) * 2 ^ B + (2 ^ (64 - N) - 1) ≤ 2 * (2 ^ N - 2 ^ B - 1) := by
  rw [Config.Valid, Config.Buildable, Config.feMax_eq, Config.modulus]
  tauto

/-- A core is a valid pair with its proof, so it exists exactly when the pair is valid. -/
theorem exists_core_iff (N B : Nat) : (∃ c : CoreParams, c.N = N ∧ c.B = B) ↔ Config.Valid N B := by
  constructor
  · rintro ⟨c, rfl, rfl⟩
    exact c.valid
  · exact fun h => ⟨Config.coreOf N B h, rfl, rfl⟩

/-- `B = 30` is not below `42 / 2` (V3). -/
theorem not_valid_42_30 : ¬ Config.Valid 42 30 := fun ⟨⟨_, _, ⟨_, hB⟩, _⟩, _⟩ => absurd hB (by decide)

/-- `FE_MAX` is above `2P` (V6). -/
theorem not_valid_36_8 : ¬ Config.Valid 36 8 := fun ⟨⟨_, _, _, _, hV6⟩, _⟩ => absurd hV6 (by decide)

/-- `2^62 − 3` is a multiple of 37 (V5). -/
theorem not_valid_62_1 : ¬ Config.Valid 62 1 := by
  rintro ⟨-, hprime⟩
  have hdvd : 37 ∣ Config.modulus 62 1 := by decide
  exact absurd ((Nat.prime_dvd_prime_iff_eq (by norm_num) hprime).1 hdvd) (by decide)

/-- Settles O58: a core is a pair with a proof of `Valid`, and each refused pair fails the condition named for it. -/
theorem coresAreExactlyTheValidPairs : Obligations.CoresAreExactlyTheValidPairs := by
  refine ⟨fun N B => (exists_core_iff N B).trans (Config.valid_iff N B), fun s => s.build.valid, ?_, ?_, ?_⟩
  · exact fun h => not_valid_42_30 ((exists_core_iff 42 30).1 h)
  · exact fun h => not_valid_36_8 ((exists_core_iff 36 8).1 h)
  · exact fun h => not_valid_62_1 ((exists_core_iff 62 1).1 h)

/-- Settles O55: the table of R13, both of whose rows are closed numbers. -/
theorem constantsOfTheTwoInstantiations : Obligations.ConstantsOfTheTwoInstantiations := by
  constructor
  · decide
  · decide

namespace Machine

/-- Settles O56: H1 to H3 from `FE_MAX ≤ 2P < 2^63`, H4 to H6 from the bounds on one and on two passes. -/
theorem headroomOfEveryInstantiation : Obligations.HeadroomOfEveryInstantiation := by
  intro p
  have hF : p.feMax < 2 ^ 63 := p.feMax_lt
  have hP : 2 * p.P < 2 ^ 63 := p.two_P_lt
  simp only [reduceOnce_eq]
  refine ⟨by omega, by omega, ?_, fun w hw => foldTwice_lt p hw, fun v hv => foldOnce_le_feMax p hv, fun v hv => ?_⟩
  · calc p.feMax * p.feMax < 2 ^ 63 * 2 ^ 63 := Nat.mul_lt_mul'' hF hF
      _ = 2 ^ 126 := by norm_num
  · calc foldOnce p v ≤ v := foldOnce_le_self p v
      _ ≤ p.feMax := hv
      _ < 2 * p.P := p.feMax_lt_two_P

/-- No effect of a command touches the parameters or the host's events. -/
theorem Effect.build_inputs {i : Instr} {s t : State} (h : Effect i s t) :
    t.build = s.build ∧ t.inputs = s.inputs := by
  cases h with
  | dout _ _ e | register _ _ _ _ e | accepted _ _ _ _ e | rejected _ _ _ _ e | compared _ _ _ _ e
  | zeroDivisor _ _ _ e => subst e; exact ⟨rfl, rfl⟩

theorem runCommand_build_inputs {c : Command} {s t : State} (h : runCommand c s = .next t) :
    t.build = s.build ∧ t.inputs = s.inputs := by
  cases hc : decode c with
  | ok i => rw [runCommand_ok hc] at h; exact (exec_cases h).build_inputs
  | error e => rw [runCommand_error hc] at h; cases h; exact ⟨rfl, rfl⟩

/-- The parameters stay and at most the next event goes, whatever the step. -/
theorem step_build_inputs {s t : State} (h : step s = .next t) :
    t.build = s.build ∧ t.inputs = s.inputs.tail := by
  rcases step_cases h with ⟨hs, -, rfl⟩ | ⟨rest, hs, rfl⟩ | ⟨c, rest, hs, -, hc⟩
  · simp [hs]
  · simp [hs]
  · simpa [hs] using runCommand_build_inputs hc

/-- Settles O50: every case of a step keeps the parameters and leaves the rest of the events. -/
theorem stepKeepsParametersAndOrder : Obligations.StepKeepsParametersAndOrder :=
  fun _ _ h => step_build_inputs h

/-- A running core takes an offered command: a next state exists, in which the later events are pending. -/
theorem step_command_next {s : State} {c : Command} {rest : List HostEvent} (h : s.inputs = .command c :: rest)
    (hf : s.faultFlag = false) : ∃ t, step s = .next t ∧ t.inputs = rest := by
  obtain ⟨t, ht⟩ := runCommand_next c { s with inputs := rest }
  have hstep : step s = .next t := (step_command h hf).trans ht
  exact ⟨t, hstep, by simp [(step_build_inputs hstep).2, h]⟩

/-- The step of a halted core with only commands pending fails, and so does the run. -/
theorem run_halted_of_commands {cs : List Command} {s : State} (k : Nat) (h : s.inputs = cs.map .command)
    (hf : s.faultFlag = true) : Host.Core.run Sys2Proof.core (k + 1) s = .fault .halted := by
  refine run_of_fault k (step_halted hf fun rest hr => ?_)
  have hmem : HostEvent.reset ∈ cs.map .command := by rw [← h, hr]; exact List.mem_cons_self
  simp at hmem

/-- A command list ends well or in the halted state, by induction on the list: a running core takes the first
command, a halted one is stuck there. -/
theorem run_commands (cs : List Command) : ∀ s : State, s.inputs = cs.map .command →
    (∃ t : State, Host.Core.run Sys2Proof.core (cs.length + 1) s = .next t ∧ t.SuccessfulEnd) ∨
    Host.Core.run Sys2Proof.core (cs.length + 1) s = .fault .halted := by
  induction cs with
  | nil =>
    intro s hs
    cases hf : s.faultFlag with
    | true => exact .inr (run_halted_of_commands 0 hs hf)
    | false => exact .inl ⟨s, run_of_next 0 (step_wait hs hf), hs, hf⟩
  | cons c cs ih =>
    intro s hs
    cases hf : s.faultFlag with
    | true => exact .inr (run_halted_of_commands _ hs hf)
    | false =>
      obtain ⟨t, hstep, ht⟩ := step_command_next hs hf
      rw [List.length_cons, run_of_next _ hstep]
      exact ih t ht

/-- Settles O49: `run_commands`, whose successful end has `FAULT = 0` and so is not halted. -/
theorem commandListsEndWellOrStuck : Obligations.CommandListsEndWellOrStuck := by
  intro cs s hs
  rcases run_commands cs s hs with ⟨t, hrun, hend⟩ | hstuck
  · exact .inl ⟨t, hrun, hend, by simp [State.Halted, hend.2]⟩
  · exact .inr hstuck

end Machine

end Sys2Proof
end

section
/-! The obligations of 10_state.md: the invariant of the core (R21, R22, R28, R29, R34), who writes the flags and
`DOUT` (R23, R26, R27), and that representatives are unobservable (R24). -/

namespace Sys2Proof.Machine

/-! ### The invariant -/

/-- A property of states holds after every step when reset establishes it and the host's list, the fault of an illegal
word and every effect of a command keep it. -/
theorem step_keeps {I : State → Prop} (hreset : ∀ rest s, I (applyReset rest s))
    (hinputs : ∀ s rest, I s → I { s with inputs := rest })
    (hfault : ∀ s w, I s → I (raiseFault .illegalCommand w s))
    (heffect : ∀ i s t, Effect i s t → I s → I t) {s t : State} (hs : I s) (h : step s = .next t) : I t := by
  rcases step_cases h with ⟨-, -, rfl⟩ | ⟨rest, -, rfl⟩ | ⟨c, rest, -, -, hc⟩
  · exact hs
  · exact hreset rest s
  · cases hd : decode c with
    | ok i => rw [runCommand_ok hd] at hc; exact heffect i _ t (exec_cases hc) (hinputs s rest hs)
    | error e => rw [runCommand_error hd] at hc; cases hc; exact hfault _ _ (hinputs s rest hs)

theorem dest_of_checked {i : Instr} {rd : RegIdx} {d : Word} (h : i = .fred rd d ∨ i = .funb rd d) :
    i.dest = some rd := by
  rcases h with rfl | rfl <;> rfl

/-- A command that is no `FRED` or `FUNB` of its destination is none of any register. -/
theorem not_checked_of_dest {i : Instr} {rd : RegIdx} (hd : i.dest = some rd)
    (hn : ∀ d, i ≠ .fred rd d ∧ i ≠ .funb rd d) (q : RegIdx) (d : Word) : i ≠ .fred q d ∧ i ≠ .funb q d := by
  have same : (i = .fred q d ∨ i = .funb q d) → q = rd :=
    fun h => Option.some.inj ((dest_of_checked h).symm.trans hd)
  constructor
  · intro h; obtain rfl := same (.inl h); exact (hn d).1 h
  · intro h; obtain rfl := same (.inr h); exact (hn d).2 h

theorem P_le_feMax (p : Params) : p.P ≤ p.feMax := p.P_lt_fullMask.le.trans p.fullMask_le_feMax

theorem stored_setReg {s : State} {v : Word} (rd : RegIdx) (h : s.Stored) (hv : v.toNat ≤ s.params.feMax) :
    (s.setReg rd v).Stored := by
  intro r
  rw [reg_setReg]
  split
  · exact hv
  · exact h r

theorem stored_applyReset (rest : List HostEvent) (s : State) : (applyReset rest s).Stored := fun r => by simp

/-- A destination holds what `writeValue_le` bounds, or a checked word below `P` (R22). -/
theorem Effect.stored {i : Instr} {s t : State} (h : Effect i s t) (hs : s.Stored) : t.Stored := by
  cases h with
  | dout _ _ e | rejected _ _ _ _ e | compared _ _ _ _ e | zeroDivisor _ _ _ e => subst e; exact hs
  | register rd hd hn _ e =>
    subst e; exact stored_setReg rd hs (writeValue_le i s hs (not_checked_of_dest hd hn))
  | accepted rd _ _ lt e => subst e; exact stored_setReg rd hs (lt.le.trans (P_le_feMax _))

theorem Effect.statusLegal {i : Instr} {s t : State} (h : Effect i s t) (hs : StatusLegal s.status) :
    StatusLegal t.status := by
  cases h with
  | dout _ _ e | register _ _ _ _ e => subst e; exact hs
  | accepted _ _ _ _ e | rejected _ _ _ _ e => subst e; exact statusLegal_setOk _ hs
  | compared _ _ _ _ e => subst e; exact statusLegal_setEq _ hs
  | zeroDivisor _ _ _ e => subst e; exact statusLegal_setFault _ hs.1

/-- `FCMD` is written by fault entry only, and then the core is halted (R29). -/
theorem Effect.fcmdClear {i : Instr} {s t : State} (h : Effect i s t) (hs : s.faultFlag = false → s.fcmd = 0) :
    t.faultFlag = false → t.fcmd = 0 := by
  cases h with
  | dout _ _ e | register _ _ _ _ e => subst e; exact hs
  | accepted _ _ _ _ e | rejected _ _ _ _ e | compared _ _ _ _ e => subst e; simpa using hs
  | zeroDivisor _ _ _ e => subst e; simp

theorem step_keeps_stored {s t : State} (hs : s.Stored) (h : step s = .next t) : t.Stored :=
  step_keeps stored_applyReset (fun _ _ h => h) (fun _ _ h => h) (fun _ _ _ => Effect.stored) hs h

theorem Effect.inv {i : Instr} {s t : State} (h : Effect i s t) (hs : s.Inv) : t.Inv :=
  ⟨h.stored hs.stored, h.statusLegal hs.statusLegal, h.fcmdClear hs.fcmdClear⟩

theorem inv_withInputs {s : State} (rest : List HostEvent) (h : s.Inv) : ({ s with inputs := rest } : State).Inv :=
  ⟨h.stored, h.statusLegal, h.fcmdClear⟩

theorem inv_raiseFault {s : State} (c : FaultCause) (w : CmdWord) (h : s.Inv) : (raiseFault c w s).Inv :=
  ⟨h.stored, statusLegal_setFault c h.statusLegal.1, by simp⟩

theorem inv_resetAt (c : CoreParams) : (State.resetAt c).Inv :=
  ⟨fun r => by simp, by simp [StatusLegal], fun _ => rfl⟩

theorem inv_applyReset (rest : List HostEvent) (s : State) : (applyReset rest s).Inv :=
  inv_withInputs rest (inv_resetAt s.build)

/-- Settles O44: reset establishes the invariant, and each effect of a command and each fault keeps its three parts. -/
theorem stepKeepsTheInvariantOfTheCore : Obligations.StepKeepsTheInvariantOfTheCore :=
  fun _ _ => step_keeps inv_applyReset (fun _ => inv_withInputs) (fun _ => inv_raiseFault _) (fun _ _ _ => Effect.inv)

/-- Settles O45: the reset state is all zero, so `inv_resetAt`; `State.reset` is defined as the reference one. -/
theorem resetMeetsTheInvariantOfTheCore : Obligations.ResetMeetsTheInvariantOfTheCore :=
  ⟨inv_resetAt, rfl⟩

/-- Settles O39: the register file reads 0 at every index, the other fields are 0 as they stand. -/
theorem resetValues : Obligations.ResetValues :=
  ⟨reg_resetAt, fun c => ⟨resetAt_dout c, resetAt_status c, resetAt_fcmd c, resetAt_build c⟩⟩

/-! ### Who writes the flags and `DOUT` -/

/-- The step that takes a legal pair off the port executes its instruction (R196). -/
theorem exec_of_step {s t : State} {c : Command} {rest : List HostEvent} {i : Instr} (h : step s = .next t)
    (hs : s.inputs = .command c :: rest) (hd : decode c = .ok i) : exec i { s with inputs := rest } = .next t := by
  have hf : s.faultFlag = false := running_of_step h (by simp [hs])
  rw [← runCommand_ok hd, ← step_command hs hf, h]

/-- A step that is no reset and changes something which neither the host's list nor fault entry touches has run a
legal command, whose effect made the change. -/
theorem command_of_change {α : Type} {g : State → α} (hinputs : ∀ s rest, g { s with inputs := rest } = g s)
    (hfault : ∀ s w, g (raiseFault .illegalCommand w s) = g s) {s t : State} (h : step s = .next t)
    (hn : ∀ rest, s.inputs ≠ .reset :: rest) (hg : g t ≠ g s) :
    ∃ c rest i, s.inputs = .command c :: rest ∧ decode c = .ok i ∧
      ∃ u, g t ≠ g u ∧ Effect i u t := by
  rcases step_cases h with ⟨-, -, rfl⟩ | ⟨rest, hs, -⟩ | ⟨c, rest, hs, -, hc⟩
  · exact absurd rfl hg
  · exact absurd hs (hn rest)
  · cases hd : decode c with
    | ok i =>
      rw [runCommand_ok hd] at hc
      exact ⟨c, rest, i, hs, hd, _, fun e => hg (e.trans (hinputs s rest)), exec_cases hc⟩
    | error e =>
      rw [runCommand_error hd] at hc
      cases hc
      exact absurd ((hfault _ _).trans (hinputs s rest)) hg

theorem okFlag_raiseFault (s : State) (c : FaultCause) (w : CmdWord) : (raiseFault c w s).okFlag = s.okFlag := by
  simp [State.okFlag]

theorem eqFlag_raiseFault (s : State) (c : FaultCause) (w : CmdWord) : (raiseFault c w s).eqFlag = s.eqFlag := by
  simp [State.eqFlag]

theorem okFlag_setEq (s : State) (b : Bool) : (s.setEq b).okFlag = s.okFlag := by simp [State.okFlag]

theorem eqFlag_setOk (s : State) (b : Bool) : (s.setOk b).eqFlag = s.eqFlag := by simp [State.eqFlag]

theorem Effect.okFlag_changed {i : Instr} {s t : State} (h : Effect i s t) (hne : t.okFlag ≠ s.okFlag) :
    ∃ rd d, i = .fred rd d ∨ i = .funb rd d := by
  cases h with
  | accepted rd d h _ _ | rejected rd d h _ _ => exact ⟨rd, d, h⟩
  | dout _ _ e | register _ _ _ _ e => subst e; exact absurd rfl hne
  | compared b _ _ _ e => subst e; exact absurd (okFlag_setEq s b) hne
  | zeroDivisor _ _ _ e => subst e; exact absurd (okFlag_raiseFault s _ _) hne

theorem Effect.eqFlag_changed {i : Instr} {s t : State} (h : Effect i s t) (hne : t.eqFlag ≠ s.eqFlag) :
    ∃ a b, i = .eq a b := by
  cases h with
  | compared _ a c h _ => exact ⟨a, c, h⟩
  | dout _ _ e | register _ _ _ _ e => subst e; exact absurd rfl hne
  | accepted rd _ _ _ e => subst e; exact absurd (eqFlag_setOk _ true) hne
  | rejected _ _ _ _ e => subst e; exact absurd (eqFlag_setOk s false) hne
  | zeroDivisor _ _ _ e => subst e; exact absurd (eqFlag_raiseFault s _ _) hne

theorem Effect.dout_changed {i : Instr} {s t : State} (h : Effect i s t) (hne : t.dout ≠ s.dout) :
    (∃ d, i = .bro d) ∨ (∃ d, i = .rbp d) ∨ ∃ a, i = .val a := by
  cases h with
  | dout _ h _ => exact h
  | register _ _ _ _ e | accepted _ _ _ _ e | rejected _ _ _ _ e | compared _ _ _ _ e
  | zeroDivisor _ _ _ e => subst e; exact absurd rfl hne

/-- Settles O41: the change is the effect of a legal command, and only one kind of effect writes each flag. -/
theorem flagsHaveOneWriterEach : Obligations.FlagsHaveOneWriterEach := by
  intro s t h hn
  constructor
  · intro hok
    obtain ⟨c, rest, i, hs, hd, u, hne, he⟩ :=
      command_of_change (fun _ _ => rfl) (fun s w => okFlag_raiseFault s _ w) h hn hok
    obtain ⟨rd, d, rfl | rfl⟩ := he.okFlag_changed hne
    · exact ⟨c, rest, rd, d, hs, .inl hd⟩
    · exact ⟨c, rest, rd, d, hs, .inr hd⟩
  · intro heq
    obtain ⟨c, rest, i, hs, hd, u, hne, he⟩ :=
      command_of_change (fun _ _ => rfl) (fun s w => eqFlag_raiseFault s _ w) h hn heq
    obtain ⟨a, b, rfl⟩ := he.eqFlag_changed hne
    exact ⟨c, rest, a, b, hs, hd⟩

/-! ### A command as one write of a value read from its sources -/

/-- What a command does to the state, with every value it writes. -/
inductive Write where
  | dout (v : Word)
  | register (rd : RegIdx) (v : Word)
  | accept (rd : RegIdx) (v : Word)
  | reject
  | compare (b : Bool)
  | zeroDivisor (cmd : CmdWord)

/-- The state after a write. -/
def Write.apply (s : State) : Write → State
  | .dout v => s.setDout v
  | .register rd v => s.setReg rd v
  | .accept rd v => (s.setReg rd v).setOk true
  | .reject => s.setOk false
  | .compare b => s.setEq b
  | .zeroDivisor cmd => raiseFault .zeroDivisor cmd s

/-- The write of `FRED` and `FUNB` (R97, R98). -/
def checkedWrite (p : Params) (rd : RegIdx) (m : Word) : Write :=
  if m.toNat < p.P then .accept rd m else .reject

/-- The write of `RECIP`, `DIV` and `REM` with the divisor `b` (R166). -/
def guardedWrite (p : Params) (b : Word) (cmd : CmdWord) (rd : RegIdx) (v : Word) : Write :=
  if isZero p b then .zeroDivisor cmd else .register rd v

/-- The write of a command, from the parameters and its source registers alone (R23). -/
def writeOf (i : Instr) (s : State) : Write :=
  match i with
  | .bro d => .dout (bro s.params d)
  | .rbp d => .dout (rbp s.params d)
  | .val a => .dout (value s.params (s.reg a))
  | .eq a b => .compare (value s.params (s.reg a) == value s.params (s.reg b))
  | .fred rd _ | .funb rd _ => checkedWrite s.params rd (writeValue i s)
  | .recip rd a => guardedWrite s.params (s.reg a) (encodeWord i) rd (writeValue i s)
  | .div rd _ b | .rem rd _ b => guardedWrite s.params (s.reg b) (encodeWord i) rd (writeValue i s)
  | .new rd _ | .mov rd _ | .add rd _ _ | .neg rd _ | .sub rd _ _ | .mul rd _ _ => .register rd (writeValue i s)

theorem storeChecked_eq (rd : RegIdx) (m : Word) (s : State) :
    storeChecked rd m s = (checkedWrite s.params rd m).apply s := by
  unfold storeChecked checkedWrite
  split <;> rfl

theorem unlessZero_eq (b : Word) (cmd : CmdWord) (rd : RegIdx) (v : Word) (s : State) :
    unlessZero b cmd rd v s = .next ((guardedWrite s.params b cmd rd v).apply s) := by
  unfold unlessZero guardedWrite
  split <;> rfl

/-- A command is its write. -/
theorem exec_eq_apply (i : Instr) (s : State) : exec i s = .next ((writeOf i s).apply s) := by
  cases i with
  | bro d | rbp d | val a | eq a b | new rd d | mov rd a | add rd a b | neg rd a | sub rd a b | mul rd a b => rfl
  | fred rd d | funb rd d => exact congrArg Host.Outcome.next (storeChecked_eq rd _ s)
  | recip rd a | div rd a b | rem rd a b => exact unlessZero_eq _ _ rd _ s

theorem eq_apply_of_exec {i : Instr} {s t : State} (h : exec i s = .next t) : t = (writeOf i s).apply s :=
  Host.Outcome.next.inj (h.symm.trans (exec_eq_apply i s))

/-- Settles O42: only one kind of effect writes `DOUT`, and its three commands write what `writeOf` says. -/
theorem doutIsWrittenByThreeCommands : Obligations.DoutIsWrittenByThreeCommands := by
  intro s t h hn
  constructor
  · intro hdout
    obtain ⟨c, rest, i, hs, hd, u, hne, he⟩ :=
      command_of_change (g := State.dout) (fun _ _ => rfl) (fun _ _ => rfl) h hn hdout
    refine ⟨c, rest, hs, ?_⟩
    obtain ⟨d, rfl⟩ | ⟨d, rfl⟩ | ⟨a, rfl⟩ := he.dout_changed hne
    · exact .inl ⟨d, hd⟩
    · exact .inr (.inl ⟨d, hd⟩)
    · exact .inr (.inr ⟨a, hd⟩)
  · intro c rest hs
    have written : ∀ i, decode c = .ok i →
        t = (writeOf i { s with inputs := rest }).apply { s with inputs := rest } :=
      fun i hd => eq_apply_of_exec (exec_of_step h hs hd)
    exact ⟨fun d hd => by rw [written _ hd]; rfl, fun d hd => by rw [written _ hd]; rfl,
      fun r hd => by rw [written _ hd]; rfl⟩

/-- The write of a command depends on the parameters and its sources only (R23). -/
theorem writeOf_congr {i : Instr} {s s' : State} (hp : s'.params = s.params)
    (hr : ∀ q ∈ i.sources, s'.reg q = s.reg q) : writeOf i s' = writeOf i s := by
  cases i with
  | bro d | rbp d | new rd d | fred rd d | funb rd d => simp only [writeOf, writeValue, hp]
  | val a | mov rd a | neg rd a | recip rd a => simp only [writeOf, writeValue, hp, hr a List.mem_cons_self]
  | add rd a b | sub rd a b | mul rd a b | div rd a b | rem rd a b | eq a b =>
    simp only [writeOf, writeValue, hp, hr a List.mem_cons_self, hr b (List.mem_cons_of_mem _ List.mem_cons_self)]

/-- What `g` reads is written with a value that does not depend on the state, or is kept. -/
def Write.Determines {α : Type} (w : Write) (g : State → α) : Prop :=
  ∀ s s' : State, g (w.apply s) = g (w.apply s') ∨ (g (w.apply s) = g s ∧ g (w.apply s') = g s')

theorem setReg_determines (s s' : State) (rd q : RegIdx) (v : Word) :
    (s.setReg rd v).reg q = (s'.setReg rd v).reg q ∨
      ((s.setReg rd v).reg q = s.reg q ∧ (s'.setReg rd v).reg q = s'.reg q) := by
  by_cases hq : q = rd
  · subst hq; exact .inl (by simp)
  · exact .inr ⟨reg_setReg_other s v hq, reg_setReg_other s' v hq⟩

theorem Write.determines_reg (w : Write) (q : RegIdx) : w.Determines (·.reg q) := by
  intro s s'
  cases w with
  | register rd v | accept rd v => exact setReg_determines s s' rd q v
  | dout v | reject | compare b | zeroDivisor cmd => exact .inr ⟨rfl, rfl⟩

theorem Write.determines_dout (w : Write) : w.Determines State.dout := by
  intro s s'
  cases w with
  | dout v => exact .inl rfl
  | register rd v | accept rd v | reject | compare b | zeroDivisor cmd => exact .inr ⟨rfl, rfl⟩

theorem Write.determines_okFlag (w : Write) : w.Determines State.okFlag := by
  intro s s'
  cases w with
  | accept rd v | reject => exact .inl (by simp [Write.apply])
  | dout v | register rd v => exact .inr ⟨rfl, rfl⟩
  | compare b => exact .inr ⟨okFlag_setEq s b, okFlag_setEq s' b⟩
  | zeroDivisor cmd => exact .inr ⟨okFlag_raiseFault s _ cmd, okFlag_raiseFault s' _ cmd⟩

theorem Write.determines_eqFlag (w : Write) : w.Determines State.eqFlag := by
  intro s s'
  cases w with
  | compare b => exact .inl (by simp [Write.apply])
  | dout v | register rd v => exact .inr ⟨rfl, rfl⟩
  | accept rd v => exact .inr ⟨eqFlag_setOk _ true, eqFlag_setOk _ true⟩
  | reject => exact .inr ⟨eqFlag_setOk s false, eqFlag_setOk s' false⟩
  | zeroDivisor cmd => exact .inr ⟨eqFlag_raiseFault s _ cmd, eqFlag_raiseFault s' _ cmd⟩

/-- A register write goes to the destination (R23). -/
theorem Effect.reg_of_not_dest {i : Instr} {s t : State} (h : Effect i s t) {q : RegIdx} (hq : i.dest ≠ some q) :
    t.reg q = s.reg q := by
  cases h with
  | register rd hd _ _ e =>
    subst e
    exact reg_setReg_other s _ fun hqr => hq (hqr ▸ hd)
  | accepted rd d h _ e =>
    subst e
    exact reg_setReg_other s _ fun hqr => hq (hqr ▸ dest_of_checked h)
  | dout _ _ e | rejected _ _ _ _ e | compared _ _ _ _ e | zeroDivisor _ _ _ e => subst e; rfl

/-- A command that faults writes no register (R170). -/
theorem Effect.reg_of_fault {i : Instr} {s t : State} (h : Effect i s t) (hf : t.faultFlag ≠ s.faultFlag)
    (q : RegIdx) : t.reg q = s.reg q := by
  cases h with
  | zeroDivisor _ _ _ e => subst e; rfl
  | dout _ _ e | register _ _ _ _ e | accepted _ _ _ _ e | rejected _ _ _ _ e | compared _ _ _ _ e =>
    subst e; exact absurd (by simp) hf

/-- `FRED` and `FUNB` that leave `OK = 0` write no register (R97, R98). -/
theorem Effect.reg_of_rejected {i : Instr} {s t : State} (h : Effect i s t) {rd : RegIdx} {d : Word}
    (hi : i = .fred rd d ∨ i = .funb rd d) (hok : t.okFlag = false) : t.reg rd = s.reg rd := by
  cases h with
  | accepted _ _ _ _ e => subst e; simp at hok
  | register q hd hn _ _ =>
    have hno := not_checked_of_dest hd hn rd d
    exact (hi.elim hno.1 hno.2).elim
  | dout _ _ e | rejected _ _ _ _ e | compared _ _ _ _ e | zeroDivisor _ _ _ e => subst e; rfl

/-- Settles O43: the frame by the effects; the two runs make the same write, which determines what it writes. -/
theorem commandsReadSourcesAndWriteDestination : Obligations.CommandsReadSourcesAndWriteDestination := by
  intro i s t h
  have he : Effect i s t := exec_cases h
  refine ⟨fun _ => he.reg_of_not_dest, he.reg_of_fault, fun _ _ => he.reg_of_rejected, fun s' t' h' hp hr => ?_⟩
  have ht' : t' = (writeOf i s).apply s' := by rw [← writeOf_congr hp hr]; exact eq_apply_of_exec h'
  rw [eq_apply_of_exec h, ht']
  exact ⟨fun rd _ => (writeOf i s).determines_reg rd s s', (writeOf i s).determines_dout s s',
    (writeOf i s).determines_okFlag s s', (writeOf i s).determines_eqFlag s s'⟩

/-! ### Representatives of one element -/

/-- `a` and `b` are stored elements with one residue: two representatives of one element (R24). -/
structure SameElement (p : Params) (a b : Word) : Prop where
  left : a.toNat ≤ p.feMax
  right : b.toNat ≤ p.feMax
  residue : a.toNat ≡ b.toNat [MOD p.P]

namespace SameElement

variable {p : Params} {a a' b b' : Word}

theorem refl (h : a.toNat ≤ p.feMax) : SameElement p a a := ⟨h, h, rfl⟩

theorem fadd (ha : SameElement p a a') (hb : SameElement p b b') :
    SameElement p (fadd p a b) (fadd p a' b') := by
  refine ⟨fadd_le p a b, fadd_le p a' b', ?_⟩
  rw [Nat.ModEq, fadd_mod p ha.left hb.left, fadd_mod p ha.right hb.right]
  exact ha.residue.add hb.residue

/-- Both negations cancel their argument. -/
theorem fneg (ha : SameElement p a a') : SameElement p (fneg p a) (fneg p a') :=
  ⟨fneg_le p a, fneg_le p a',
    ha.residue.add_right_cancel ((fneg_mod p ha.left).trans (fneg_mod p ha.right).symm)⟩

theorem fsub (ha : SameElement p a a') (hb : SameElement p b b') :
    SameElement p (fsub p a b) (fsub p a' b') := ha.fadd hb.fneg

theorem fmul (ha : SameElement p a a') (hb : SameElement p b b') :
    SameElement p (fmul p a b) (fmul p a' b') := by
  refine ⟨fmul_le p a b, fmul_le p a' b', ?_⟩
  rw [Nat.ModEq, fmul_mod p ha.left hb.left, fmul_mod p ha.right hb.right]
  exact ha.residue.mul hb.residue

theorem fpowPm2 (ha : SameElement p a a') : SameElement p (fpowPm2 p a) (fpowPm2 p a') := by
  refine ⟨fpowPm2_le p ha.left, fpowPm2_le p ha.right, ?_⟩
  rw [Nat.ModEq, fpowPm2_mod p ha.left, fpowPm2_mod p ha.right]
  exact ha.residue.pow _

theorem quotient (ha : SameElement p a a') (hb : SameElement p b b') :
    SameElement p (quotient p a b) (quotient p a' b') := ha.fmul hb.fpowPm2

theorem value_eq (ha : SameElement p a a') : value p a = value p a' :=
  (value_eq_iff p ha.left ha.right).2 ha.residue

theorem isZero_eq (ha : SameElement p a a') : isZero p a = isZero p a' := by
  rw [isZero, isZero, ha.value_eq]

end SameElement

/-! ### Representatives are unobservable -/

/-- Two writes that differ at most in the representative they write. -/
inductive Write.SameUpTo (p : Params) : Write → Write → Prop
  | refl (w : Write) : Write.SameUpTo p w w
  | register (rd : RegIdx) {v v' : Word} (h : SameElement p v v') :
      Write.SameUpTo p (.register rd v) (.register rd v')

theorem guardedWrite_sameUpTo {p : Params} {b b' v v' : Word} (cmd : CmdWord) (rd : RegIdx)
    (hb : SameElement p b b') (hv : SameElement p v v') :
    Write.SameUpTo p (guardedWrite p b cmd rd v) (guardedWrite p b' cmd rd v') := by
  unfold guardedWrite
  rw [← hb.isZero_eq]
  split
  · exact .refl _
  · exact .register rd hv

/-- Representatives of the same elements in the registers give the same write, but for its representative. -/
theorem writeOf_sameUpTo (i : Instr) {s t : State} (hp : s.params = t.params)
    (h : ∀ r, SameElement s.params (s.reg r) (t.reg r)) :
    Write.SameUpTo s.params (writeOf i s) (writeOf i t) := by
  cases i with
  | bro d | rbp d | fred rd d | funb rd d => rw [writeOf_congr hp.symm (by simp [Instr.sources])]; exact .refl _
  | val a => simp only [writeOf, ← hp, (h a).value_eq]; exact .refl _
  | eq a b => simp only [writeOf, ← hp, (h a).value_eq, (h b).value_eq]; exact .refl _
  | new rd d => simp only [writeOf, writeValue, ← hp]; exact .refl _
  | mov rd a => exact .register rd (h a)
  | add rd a b => simp only [writeOf, writeValue, ← hp]; exact .register rd ((h a).fadd (h b))
  | neg rd a => simp only [writeOf, writeValue, ← hp]; exact .register rd (h a).fneg
  | sub rd a b => simp only [writeOf, writeValue, ← hp]; exact .register rd ((h a).fsub (h b))
  | mul rd a b => simp only [writeOf, writeValue, ← hp]; exact .register rd ((h a).fmul (h b))
  | recip rd a =>
    simp only [writeOf, writeValue, ← hp]; exact guardedWrite_sameUpTo _ rd (h a) (h a).fpowPm2
  | div rd a b =>
    simp only [writeOf, writeValue, ← hp]; exact guardedWrite_sameUpTo _ rd (h b) ((h a).quotient (h b))
  | rem rd a b =>
    simp only [writeOf, writeValue, ← hp]
    exact guardedWrite_sameUpTo _ rd (h b) ((h a).fsub ((h a).quotient (h b)))

namespace Indistinguishable

variable {s t : State}

theorem params (h : Indistinguishable s t) : s.params = t.params := congrArg CoreParams.toParams h.build

theorem faultFlag (h : Indistinguishable s t) : s.faultFlag = t.faultFlag := congrArg statusFault h.status

theorem outputs (h : Indistinguishable s t) : s.outputs = t.outputs := by
  simp only [State.outputs, h.dout, h.status, h.fcmd, h.faultFlag]

theorem residue (h : Indistinguishable s t) (r : RegIdx) : (s.reg r).toNat ≡ (t.reg r).toNat [MOD s.params.P] :=
  (h.residues r).trans (by rw [h.params])

theorem sameElement (h : Indistinguishable s t) (hs : s.Stored) (ht : t.Stored) (r : RegIdx) :
    SameElement s.params (s.reg r) (t.reg r) :=
  ⟨hs r, h.params ▸ ht r, h.residue r⟩

theorem withInputs (h : Indistinguishable s t) (rest : List HostEvent) :
    Indistinguishable { s with inputs := rest } { t with inputs := rest } :=
  ⟨h.build, h.residues, h.dout, h.status, h.fcmd, rfl⟩

theorem applyReset (h : Indistinguishable s t) (rest : List HostEvent) :
    Indistinguishable (applyReset rest s) (applyReset rest t) :=
  ⟨h.build, fun r => by simp, rfl, rfl, rfl, rfl⟩

theorem setReg (h : Indistinguishable s t) (rd : RegIdx) {v v' : Word} (hv : v.toNat ≡ v'.toNat [MOD s.params.P]) :
    Indistinguishable (s.setReg rd v) (t.setReg rd v') := by
  refine ⟨h.build, fun r => ?_, h.dout, h.status, h.fcmd, h.inputs⟩
  rw [reg_setReg, reg_setReg, setReg_params, setReg_params, ← h.params]
  split
  · exact hv
  · exact h.residue r

theorem setOk (h : Indistinguishable s t) (b : Bool) : Indistinguishable (s.setOk b) (t.setOk b) :=
  ⟨h.build, h.residues, h.dout, congrArg (statusSetOk b) h.status, h.fcmd, h.inputs⟩

theorem raiseFault (h : Indistinguishable s t) (c : FaultCause) (w : CmdWord) :
    Indistinguishable (raiseFault c w s) (raiseFault c w t) :=
  ⟨h.build, h.residues, h.dout, congrArg (statusSetFault c) h.status, rfl, h.inputs⟩

theorem apply (h : Indistinguishable s t) {w w' : Write} (hw : Write.SameUpTo s.params w w') :
    Indistinguishable (w.apply s) (w'.apply t) := by
  cases hw with
  | register rd hv => exact h.setReg rd hv.residue
  | refl =>
    cases w with
    | dout v => exact ⟨h.build, h.residues, rfl, h.status, h.fcmd, h.inputs⟩
    | register rd v => exact h.setReg rd rfl
    | accept rd v => exact (h.setReg rd rfl).setOk true
    | reject => exact h.setOk false
    | compare b => exact ⟨h.build, h.residues, h.dout, congrArg (statusSetEq b) h.status, h.fcmd, h.inputs⟩
    | zeroDivisor cmd => exact h.raiseFault _ cmd

/-- One command, on both cores. -/
theorem runCommand (h : Indistinguishable s t) (hs : s.Stored) (ht : t.Stored) (c : Command) :
    ∃ s' t', runCommand c s = .next s' ∧ runCommand c t = .next t' ∧ Indistinguishable s' t' := by
  cases hd : decode c with
  | ok i =>
    rw [runCommand_ok hd, runCommand_ok hd]
    exact ⟨_, _, exec_eq_apply i s, exec_eq_apply i t, h.apply (writeOf_sameUpTo i h.params (h.sameElement hs ht))⟩
  | error e => exact ⟨_, _, runCommand_error hd s, runCommand_error hd t, h.raiseFault _ c.cmd⟩

/-- One step, on both cores: both are stuck, or both take it and stay indistinguishable. -/
theorem step (h : Indistinguishable s t) (hs : s.Stored) (ht : t.Stored) :
    (step s = .fault .halted ∧ step t = .fault .halted) ∨
    ∃ s' t', step s = .next s' ∧ step t = .next t' ∧ Indistinguishable s' t' := by
  by_cases hr : ∃ rest, s.inputs = .reset :: rest
  · obtain ⟨rest, hr⟩ := hr
    exact .inr ⟨_, _, step_reset hr, step_reset (h.inputs ▸ hr), h.applyReset rest⟩
  have hn : ∀ rest, s.inputs ≠ .reset :: rest := fun rest e => hr ⟨rest, e⟩
  cases hf : s.faultFlag with
  | true => exact .inl ⟨step_halted hf hn, step_halted (h.faultFlag ▸ hf) (h.inputs ▸ hn)⟩
  | false =>
    have hf' : t.faultFlag = false := h.faultFlag ▸ hf
    rcases he : s.inputs with - | ⟨c | -, rest⟩
    · exact .inr ⟨s, t, step_wait he hf, step_wait (h.inputs ▸ he) hf', h⟩
    · rw [step_command he hf, step_command (h.inputs ▸ he) hf']
      exact .inr ((h.withInputs rest).runCommand hs ht c)
    · exact absurd he (hn rest)

end Indistinguishable

/-- Settles O47, by induction on the number of steps: `Indistinguishable.step`, and stored elements stay stored. -/
theorem representativesAreUnobservable : Obligations.RepresentativesAreUnobservable := by
  intro k
  induction k with
  | zero =>
    intro s t _ _ h
    constructor
    · intro s' e; cases e; exact ⟨t, rfl, h, h.outputs⟩
    · intro r e; cases e
  | succ k ih =>
    intro s t hs ht h
    rcases h.step hs ht with ⟨es, et⟩ | ⟨s₁, t₁, es, et, h₁⟩
    · rw [run_of_fault k es, run_of_fault k et]
      exact ⟨fun _ e => (nomatch e), fun _ e => e⟩
    · rw [run_of_next k es, run_of_next k et]
      exact ih s₁ t₁ (step_keeps_stored hs es) (step_keeps_stored ht et) h₁

end Sys2Proof.Machine
end

section
/-! The obligation of 20_memory.md: the idempotent commands (R44). A command whose destination is not among its sources
reads the same values when it runs again, so it makes the same write, and a write made twice is made once. -/

namespace Sys2Proof.Machine

/-! ### A write made twice -/

theorem statusSetOk_idem (b : Bool) (st : BitVec 8) : statusSetOk b (statusSetOk b st) = statusSetOk b st :=
  status_ext (by simp) (by simp) (by simp) (by simp) (by simp)

theorem statusSetEq_idem (b : Bool) (st : BitVec 8) : statusSetEq b (statusSetEq b st) = statusSetEq b st :=
  status_ext (by simp) (by simp) (by simp) (by simp) (by simp)

theorem statusSetFault_idem (c : FaultCause) (st : BitVec 8) :
    statusSetFault c (statusSetFault c st) = statusSetFault c st :=
  status_ext (by simp) (by simp) (by simp) (by simp) (by simp)

theorem setReg_idem (s : State) (rd : RegIdx) (v : Word) : (s.setReg rd v).setReg rd v = s.setReg rd v := by
  simp [State.setReg]

theorem setOk_idem (s : State) (b : Bool) : (s.setOk b).setOk b = s.setOk b := by
  simp [State.setOk, statusSetOk_idem]

theorem setEq_idem (s : State) (b : Bool) : (s.setEq b).setEq b = s.setEq b := by
  simp [State.setEq, statusSetEq_idem]

theorem raiseFault_idem (s : State) (c : FaultCause) (w : CmdWord) :
    raiseFault c w (raiseFault c w s) = raiseFault c w s := by
  simp [raiseFault, statusSetFault_idem]

/-- A register and the flag `OK` are written apart. -/
theorem setReg_setOk (s : State) (rd : RegIdx) (v : Word) (b : Bool) :
    (s.setOk b).setReg rd v = (s.setReg rd v).setOk b := rfl

theorem Write.apply_idem (w : Write) (s : State) : w.apply (w.apply s) = w.apply s := by
  cases w with
  | dout v => rfl
  | register rd v => exact setReg_idem s rd v
  | accept rd v =>
    calc (((s.setReg rd v).setOk true).setReg rd v).setOk true
        = (((s.setReg rd v).setReg rd v).setOk true).setOk true := by rw [setReg_setOk]
      _ = (s.setReg rd v).setOk true := by rw [setReg_idem, setOk_idem]
  | reject => exact setOk_idem s false
  | compare b => exact setEq_idem s b
  | zeroDivisor cmd => exact raiseFault_idem s .zeroDivisor cmd

/-! ### A command run twice -/

/-- The command writes no register that it reads, by the table of R23. -/
def WritesNoSource (i : Instr) : Prop := ∀ q ∈ i.sources, i.dest ≠ some q

theorem writesNoSource_of_no_sources {i : Instr} (h : i.sources = []) : WritesNoSource i := by
  simp [WritesNoSource, h]

theorem writesNoSource_of_no_dest {i : Instr} (h : i.dest = none) : WritesNoSource i := by
  simp [WritesNoSource, h]

theorem writesNoSource_mov {rd r : RegIdx} (h : rd ≠ r) : WritesNoSource (.mov rd r) := by
  simpa [WritesNoSource, Instr.sources, Instr.dest] using h

/-- What a command reads, it reads again after its own effect, unless it writes a source. -/
theorem writeOf_after {i : Instr} {s t : State} (hi : WritesNoSource i) (h : Effect i s t) :
    writeOf i t = writeOf i s :=
  writeOf_congr (congrArg CoreParams.toParams h.build_inputs.1) fun q hq => h.reg_of_not_dest (hi q hq)

/-- A command that writes none of its sources gives, run twice, what it gives once. -/
theorem exec_idem {i : Instr} {s t : State} (hi : WritesNoSource i) (h : exec i s = .next t) :
    exec i t = .next t := by
  have ht : t = (writeOf i s).apply s := eq_apply_of_exec h
  have hagain : (writeOf i t).apply t = t := by
    rw [writeOf_after hi (exec_cases h), ht, Write.apply_idem]
  rw [exec_eq_apply, hagain]

/-- Settles O48: of the named commands only `MOV` has both sources and a destination, and there they are distinct. -/
theorem repeatedDataMovementChangesNothing : Obligations.RepeatedDataMovementChangesNothing := by
  intro i s t hi
  apply exec_idem
  rcases hi with ⟨d, rfl⟩ | ⟨d, rfl⟩ | ⟨rd, d, rfl⟩ | ⟨rd, d, rfl⟩ | ⟨rd, d, rfl⟩ | ⟨r, rfl⟩ | ⟨rd, r, rfl, hne⟩ |
    ⟨a, b, rfl⟩
  iterate 5 exact writesNoSource_of_no_sources rfl
  · exact writesNoSource_of_no_dest rfl
  · exact writesNoSource_mov hne
  · exact writesNoSource_of_no_dest rfl

end Sys2Proof.Machine
end

section
/-! The obligations of 30_encoding.md: the decoder and the encoder are inverse (R56 to R63), which words are legal (R59 to
R61), that the register formats ignore the data word (R58), and the pseudo-instructions (R71, R72). The decoder is taken
apart once, by the fields its opcode uses (`decode_unassigned`, `decode_assigned`); what is legal is then `InFormat`. -/

namespace Sys2Proof

/-! ### The word of an instruction -/

/-- The opcode of a command (R59). -/
def Instr.opcode : Instr → BitVec 5
  | .bro _ => 0x01
  | .rbp _ => 0x02
  | .new _ _ => 0x03
  | .fred _ _ => 0x04
  | .funb _ _ => 0x05
  | .val _ => 0x06
  | .mov _ _ => 0x07
  | .add _ _ _ => 0x08
  | .neg _ _ => 0x09
  | .sub _ _ _ => 0x0A
  | .mul _ _ _ => 0x0B
  | .recip _ _ => 0x0C
  | .div _ _ _ => 0x0D
  | .rem _ _ _ => 0x0E
  | .eq _ _ => 0x0F

/-- `commandWord_eq` for a `match` word written as a number. -/
theorem commandWord_eq_ofFields {k : CmdWord} {op : BitVec 5} (hk : k = ofFields op 0 0 0 0) (rd rs1 rs2 : RegIdx) :
    commandWord k rd rs1 rs2 = ofFields op rd rs1 rs2 0 := by
  rw [hk, commandWord_eq]

/-- The word of an instruction holds its opcode, its destination and its sources, and 0 in every other field (R56, R59). -/
theorem encodeWord_eq_ofFields (i : Instr) :
    encodeWord i = ofFields i.opcode (i.dest.getD 0) (i.sources.getD 0 0) (i.sources.getD 1 0) 0 := by
  cases i <;> exact commandWord_eq_ofFields (by dsimp only [Instr.opcode]; decide) _ _ _

theorem opcodeField_encodeWord (i : Instr) : opcodeField (encodeWord i) = i.opcode := by
  rw [encodeWord_eq_ofFields]; exact (fields_ofFields _ _ _ _ _).1

/-! ### The mask of a format -/

/-- The mask bits over a register field: none where the format uses the field, all where it must be 000 (R57). -/
def unusedMask (used : Bool) : RegIdx := if used then 0 else 7

/-- The mask of a format (R57). -/
def FieldUse.mask (u : FieldUse) : CmdWord := ofFields 31 (unusedMask u.rd) (unusedMask u.rs1) (unusedMask u.rs2) 3

theorem and_unusedMask_eq_zero (used : Bool) (x : RegIdx) : x &&& unusedMask used = 0 ↔ (used || x == 0) = true := by
  revert used x; decide

/-- The mask comparison of a format is R61's condition on the fields. -/
theorem mask_iff_fieldsClear (w : CmdWord) (op : BitVec 5) (u : FieldUse) :
    w &&& u.mask = ofFields op 0 0 0 0 ↔ opcodeField w = op ∧ (u.rd || rdField w == 0) = true ∧
      (u.rs1 || rs1Field w == 0) = true ∧ (u.rs2 || rs2Field w == 0) = true ∧ w.extractLsb' 0 2 = 0 := by
  rw [FieldUse.mask, masked_iff, and_unusedMask_eq_zero, and_unusedMask_eq_zero, and_unusedMask_eq_zero]

/-- A word built from fields passes the comparison of a format when the fields the format does not use are 0. -/
theorem ofFields_and_mask {op : BitVec 5} {a b c : RegIdx} {u : FieldUse} (ha : (u.rd || a == 0) = true)
    (hb : (u.rs1 || b == 0) = true) (hc : (u.rs2 || c == 0) = true) :
    ofFields op a b c 0 &&& u.mask = ofFields op 0 0 0 0 := by
  obtain ⟨hop, hrd, hrs1, hrs2, hz⟩ := fields_ofFields op a b c 0
  rw [mask_iff_fieldsClear, hop, hrd, hrs1, hrs2, hz]
  exact ⟨rfl, ha, hb, hc, rfl⟩

/-- The word's opcode has a format, and the word passes the comparison under the format's mask (R57, R63). -/
def InFormat (w : CmdWord) : Prop :=
  ∃ u, fieldUse (opcodeField w) = some u ∧ w &&& u.mask = ofFields (opcodeField w) 0 0 0 0

/-! ### Decoding an encoded instruction -/

theorem underMask_ofFields {op : BitVec 5} {a b c : RegIdx} {m k : CmdWord} {i : Instr} (u : FieldUse) (hm : m = u.mask)
    (hk : k = ofFields op 0 0 0 0) (ha : (u.rd || a == 0) = true) (hb : (u.rs1 || b == 0) = true)
    (hc : (u.rs2 || c == 0) = true) : underMask (ofFields op a b c 0) m k i = .ok i := by
  rw [underMask, hm, hk, if_pos (ofFields_and_mask ha hb hc)]

/-- The word of an instruction decodes to it, with the data word of the pair; one case per format of R57. -/
theorem decode_encodeWord (i : Instr) (d : Word) : decode ⟨encodeWord i, d⟩ = .ok (i.withData d) := by
  obtain ⟨hop, hrd, hrs1, hrs2, -⟩ :=
    fields_ofFields i.opcode (i.dest.getD 0) (i.sources.getD 0 0) (i.sources.getD 1 0) 0
  rw [encodeWord_eq_ofFields]
  simp only [decode, hop, hrd, hrs1, hrs2]
  cases i <;> dsimp only [Instr.opcode]
  case bro | rbp => exact underMask_ofFields ⟨false, false, false⟩ (by decide) (by decide) rfl rfl rfl
  case new | fred | funb => exact underMask_ofFields ⟨true, false, false⟩ (by decide) (by decide) rfl rfl rfl
  case val => exact underMask_ofFields ⟨false, true, false⟩ (by decide) (by decide) rfl rfl rfl
  case mov | neg | recip => exact underMask_ofFields ⟨true, true, false⟩ (by decide) (by decide) rfl rfl rfl
  case add | sub | mul | div | rem => exact underMask_ofFields ⟨true, true, true⟩ (by decide) (by decide) rfl rfl rfl
  case eq => exact underMask_ofFields ⟨false, true, true⟩ (by decide) (by decide) rfl rfl rfl

/-- Settles O2: `decode_encodeWord` with the instruction's own data word. -/
theorem decodeOfEncodeIsTheInstruction : Obligations.DecodeOfEncodeIsTheInstruction := by
  intro i
  rw [encode, decode_encodeWord, withData_encodeData]

/-! ### The decoder by the fields its opcode uses -/

theorem underMask_congr {w m k m' k' : CmdWord} {i : Instr} (hm : m = m') (hk : k = k') :
    underMask w m k i = underMask w m' k' i := by rw [hm, hk]

theorem opcodeField_of_toNat {w : CmdWord} {n : Nat} (h : (opcodeField w).toNat = n) : opcodeField w = BitVec.ofNat 5 n := by
  rw [← h, BitVec.ofNat_toNat, BitVec.setWidth_eq]

theorem decode_unassigned {c : Command} (h : fieldUse (opcodeField c.cmd) = none) :
    decode c = .error .unassignedOpcode := by
  unfold decode
  dsimp only
  split
  case h_16 => rfl
  all_goals next hop => rw [fieldUse, hop] at h; cases h

/-- The decoder on an assigned opcode: the comparison under the mask of the opcode's format, and an instruction whose word
holds the fields that the format uses (R57, R63). -/
theorem decode_assigned {c : Command} {u : FieldUse} (h : fieldUse (opcodeField c.cmd) = some u) :
    ∃ i, decode c = underMask c.cmd u.mask (ofFields (opcodeField c.cmd) 0 0 0 0) i ∧
      encodeWord i = ofFields (opcodeField c.cmd) (if u.rd then rdField c.cmd else 0)
        (if u.rs1 then rs1Field c.cmd else 0) (if u.rs2 then rs2Field c.cmd else 0) 0 := by
  unfold decode
  dsimp only
  split
  case h_16 => simp_all [fieldUse] -- no other opcode has a format
  all_goals
    next hop =>
    rw [opcodeField_of_toNat hop] at h ⊢
    cases h
    exact ⟨_, underMask_congr (by decide) (by decide), commandWord_eq_ofFields (by decide) _ _ _⟩

theorem underMask_eq_ok_iff {w m k : CmdWord} {i j : Instr} : underMask w m k i = .ok j ↔ w &&& m = k ∧ i = j := by
  by_cases h : w &&& m = k <;> simp [underMask, h]

/-- The checks of WellFormed.lean and the comparison under the format's mask accept the same words. -/
theorem wellFormed_iff_inFormat (w : CmdWord) : (CmdFields.ofWord w).wellFormed = true ↔ InFormat w := by
  have hop : (CmdFields.ofWord w).opcode = opcodeField w := rfl
  simp only [CmdFields.wellFormed, CmdFields.opcodeAssigned, CmdFields.zeroClear, CmdFields.rdClear, CmdFields.rs1Clear,
    CmdFields.rs2Clear, InFormat, hop, mask_iff_fieldsClear, true_and]
  cases hu : fieldUse (opcodeField w) with
  | none => simp
  | some u =>
    simp only [Option.isSome_some, Bool.true_and, Bool.and_eq_true, beq_iff_eq, Option.some.injEq, exists_eq_left']
    constructor
    · exact fun ⟨⟨⟨hz, hrd⟩, hrs1⟩, hrs2⟩ => ⟨hrd, hrs1, hrs2, hz⟩
    · exact fun ⟨hrd, hrs1, hrs2, hz⟩ => ⟨⟨⟨hz, hrd⟩, hrs1⟩, hrs2⟩

theorem legal_iff_inFormat (c : Command) : (∃ i, decode c = .ok i) ↔ InFormat c.cmd := by
  unfold InFormat
  cases hu : fieldUse (opcodeField c.cmd) with
  | none => simp [decode_unassigned hu]
  | some u =>
    obtain ⟨i, hdec, -⟩ := decode_assigned hu
    simp [hdec, underMask_eq_ok_iff]

/-- Settles O7: both are the comparison under the mask of the opcode's format. -/
theorem decoderAgreesWithTheFieldChecks : Obligations.DecoderAgreesWithTheFieldChecks :=
  fun c => (legal_iff_inFormat c).trans (wellFormed_iff_inFormat c.cmd).symm

/-! ### A legal word is one encoding -/

theorem ite_eq_of_clear {used : Bool} {x : RegIdx} (h : (used || x == 0) = true) : (if used then x else 0) = x := by
  cases used with
  | true => rfl
  | false => exact (eq_of_beq h).symm

/-- The instruction's word holds the fields its format uses, and the fields it does not use are 0 in a legal word. -/
theorem encodeWord_of_decode {c : Command} {i : Instr} (h : decode c = .ok i) : encodeWord i = c.cmd := by
  obtain ⟨u, hu, hmask⟩ := (legal_iff_inFormat c).1 ⟨i, h⟩
  obtain ⟨j, hdec, hword⟩ := decode_assigned hu
  obtain ⟨-, rfl⟩ := underMask_eq_ok_iff.1 (hdec.symm.trans h)
  obtain ⟨-, hrd, hrs1, hrs2, hz⟩ := (mask_iff_fieldsClear _ _ _).1 hmask
  rw [hword, ite_eq_of_clear hrd, ite_eq_of_clear hrs1, ite_eq_of_clear hrs2, ← hz]
  exact (word_eq_ofFields c.cmd).symm

/-- Settles O3, by `encodeWord_of_decode`. -/
theorem legalWordIsItsOneEncoding : Obligations.LegalWordIsItsOneEncoding :=
  fun _ _ h => encodeWord_of_decode h

/-! ### The rows of the opcode map -/

/-- A row's `match` word is its opcode's, and its mask that of the opcode's format. -/
theorem row_of_mem : ∀ row ∈ opcodeTable, row.matchWord = ofFields (opcodeField row.matchWord) 0 0 0 0 ∧
    (fieldUse (opcodeField row.matchWord)).map FieldUse.mask = some row.mask := by decide

/-- Every opcode with a format has a row. -/
theorem exists_row : ∀ op : BitVec 5, (fieldUse op).isSome = true →
    ∃ row ∈ opcodeTable, opcodeField row.matchWord = op := by decide

/-- No opcode has two rows. -/
theorem row_eq_of_opcode : ∀ row ∈ opcodeTable, ∀ row' ∈ opcodeTable,
    opcodeField row.matchWord = opcodeField row'.matchWord → row = row' := by decide

/-- A word is in a row exactly when it has the row's opcode and passes the comparison of its format. -/
theorem mem_row_iff {row : OpcodeRow} (h : row ∈ opcodeTable) (w : CmdWord) : w &&& row.mask = row.matchWord ↔
    opcodeField w = opcodeField row.matchWord ∧ InFormat w := by
  obtain ⟨hmatch, hmap⟩ := row_of_mem row h
  obtain ⟨u, hu, hmask⟩ := Option.map_eq_some_iff.1 hmap
  rw [hmatch, ← hmask]
  constructor
  · intro hw
    have hop : opcodeField w = opcodeField row.matchWord := ((mask_iff_fieldsClear _ _ _).1 hw).1
    exact ⟨hop.trans (fields_ofFields _ _ _ _ _).1.symm, u, by rw [hop, hu], by rw [hop, hw]⟩
  · rintro ⟨hop, u', hu', hw⟩
    rw [(fields_ofFields _ _ _ _ _).1] at hop
    rw [hop] at hu' hw
    obtain rfl : u = u' := Option.some.inj (hu.symm.trans hu')
    exact hw

/-- Settles O4: a legal word is in the row of its opcode, and the rows have different opcodes. -/
theorem legalWordsAreTheRowsOfTheMap : Obligations.LegalWordsAreTheRowsOfTheMap := by
  intro c
  refine ⟨?_, fun row h row' h' hw hw' => ?_⟩
  · rw [legal_iff_inFormat]
    constructor
    · rintro ⟨u, hu, hmask⟩
      obtain ⟨row, hrow, hop⟩ := exists_row (opcodeField c.cmd) (by rw [hu]; rfl)
      exact ⟨row, hrow, (mem_row_iff hrow _).2 ⟨hop.symm, u, hu, hmask⟩⟩
    · rintro ⟨row, hrow, hw⟩
      exact ((mem_row_iff hrow _).1 hw).2
  · exact row_eq_of_opcode row h row' h' (((mem_row_iff h _).1 hw).1.symm.trans ((mem_row_iff h' _).1 hw').1)

/-! ### The number of legal words -/

/-- The values of a register field: all eight where the format uses it, 000 where it does not (R61). -/
def fieldValues (used : Bool) : List RegIdx := if used then (List.finRange 8).map BitVec.ofFin else [0]

/-- The legal words of an opcode. -/
def wordsOfOpcode (op : BitVec 5) : List CmdWord :=
  match fieldUse op with
  | some u => (fieldValues u.rd ×ˢ fieldValues u.rs1 ×ˢ fieldValues u.rs2).map fun f => ofFields op f.1 f.2.1 f.2.2 0
  | none => []

/-- The legal words, opcode by opcode. -/
def legalWords : List CmdWord := ((List.finRange 32).map BitVec.ofFin).flatMap wordsOfOpcode

theorem mem_fieldValues (used : Bool) (x : RegIdx) : x ∈ fieldValues used ↔ (used || x == 0) = true := by
  revert used x; decide

theorem nodup_fieldValues (used : Bool) : (fieldValues used).Nodup := by revert used; decide

theorem mem_wordsOfOpcode (op : BitVec 5) (w : CmdWord) : w ∈ wordsOfOpcode op ↔ opcodeField w = op ∧ InFormat w := by
  cases hu : fieldUse op with
  | none =>
    simp only [wordsOfOpcode, hu, List.not_mem_nil, false_iff]
    rintro ⟨rfl, u, hu', -⟩
    cases hu.symm.trans hu'
  | some u =>
    simp only [wordsOfOpcode, hu, List.mem_map, Prod.exists, List.mem_product, mem_fieldValues]
    constructor
    · rintro ⟨a, b, c, ⟨ha, hb, hc⟩, rfl⟩
      have hop : opcodeField (ofFields op a b c 0) = op := (fields_ofFields op a b c 0).1
      exact ⟨hop, u, by rw [hop, hu], by rw [hop, ofFields_and_mask ha hb hc]⟩
    · rintro ⟨rfl, u', hu', hmask⟩
      obtain rfl : u = u' := Option.some.inj (hu.symm.trans hu')
      obtain ⟨-, hrd, hrs1, hrs2, hz⟩ := (mask_iff_fieldsClear _ _ _).1 hmask
      exact ⟨rdField w, rs1Field w, rs2Field w, ⟨hrd, hrs1, hrs2⟩, by rw [← hz]; exact (word_eq_ofFields w).symm⟩

theorem nodup_wordsOfOpcode (op : BitVec 5) : (wordsOfOpcode op).Nodup := by
  unfold wordsOfOpcode
  split
  · next u _ =>
    refine List.Nodup.map ?_ ((nodup_fieldValues _).product ((nodup_fieldValues _).product (nodup_fieldValues _)))
    rintro ⟨a, b, c⟩ ⟨a', b', c'⟩ h
    obtain ⟨-, rfl, rfl, rfl, -⟩ := ofFields_inj.1 h
    rfl
  · exact List.nodup_nil

theorem mem_legalWords (w : CmdWord) (d : Word) : w ∈ legalWords ↔ ∃ i, decode ⟨w, d⟩ = .ok i := by
  have hall : ∀ op : BitVec 5, op ∈ (List.finRange 32).map BitVec.ofFin := by decide
  rw [legal_iff_inFormat]
  simp only [legalWords, List.mem_flatMap, mem_wordsOfOpcode]
  constructor
  · rintro ⟨op, -, rfl, h⟩
    exact h
  · exact fun h => ⟨opcodeField w, hall _, rfl, h⟩

theorem nodup_legalWords : legalWords.Nodup := by
  refine List.nodup_flatMap.2 ⟨fun op _ => nodup_wordsOfOpcode op, ?_⟩
  refine List.Pairwise.imp (fun hne w h h' => ?_) (by decide : ((List.finRange 32).map (BitVec.ofFin (w := 5))).Nodup)
  exact hne (((mem_wordsOfOpcode _ w).1 h).1.symm.trans ((mem_wordsOfOpcode _ w).1 h').1)

/-- Eight words for every register field the format uses (R61). -/
theorem length_wordsOfOpcode (op : BitVec 5) : (wordsOfOpcode op).length =
    (fieldUse op).elim 0 fun u => (fieldValues u.rd).length * ((fieldValues u.rs1).length * (fieldValues u.rs2).length) := by
  cases hu : fieldUse op with
  | none => simp [wordsOfOpcode, hu]
  | some u => simp [wordsOfOpcode, hu, List.length_product]

theorem length_legalWords : legalWords.length = 2850 := by
  simp only [legalWords, List.length_flatMap, length_wordsOfOpcode]
  decide

/-! ### The opcode as a number -/

theorem toNat_opcodeField (w : CmdWord) : (opcodeField w).toNat = w.toNat / 2048 := by
  have := w.isLt
  rw [opcodeField, BitVec.extractLsb'_toNat, Nat.shiftRight_eq_div_pow]
  omega

theorem fieldUse_unassigned : ∀ op : BitVec 5, op.toNat = 0 ∨ 0x10 ≤ op.toNat → fieldUse op = none := by decide

/-! ### Formats without a data operand -/

theorem withData_of_opcode {i : Instr} (h : 6 ≤ i.opcode.toNat) (d : Word) : i.withData d = i := by
  cases i with
  | bro _ | rbp _ | new _ _ | fred _ _ | funb _ _ => exact absurd h (by simp [Instr.opcode])
  | _ => rfl

/-- From opcode 0x06 on, decoding does not read the data word (R58). -/
theorem decode_of_opcode {w : CmdWord} (h : 6 * 2048 ≤ w.toNat) (d : Word) : decode ⟨w, d⟩ = decode ⟨w, 0⟩ := by
  rw [decode_data]
  cases hd : decode ⟨w, 0⟩ with
  | error e => rfl
  | ok i =>
    have hop : i.opcode.toNat = w.toNat / 2048 := by
      rw [← opcodeField_encodeWord, encodeWord_of_decode hd, toNat_opcodeField]
    exact congrArg Except.ok (withData_of_opcode (by omega) d)

/-! ### Words of the spec -/

/-- A legal word decodes, with any data word, to the instruction it decodes to with the data word 0. -/
theorem decode_ok_data {w : CmdWord} {i : Instr} (h : decode ⟨w, 0⟩ = .ok i) (d : Word) :
    decode ⟨w, d⟩ = .ok (i.withData d) := by
  rw [decode_data, h]; rfl

/-- Settles O1: each word with the data word 0 is a closed fact, and the data word only fills the operand of `BRO` and
`NEW`. -/
theorem decodesWordsOfTheSpec : Obligations.DecodesWordsOfTheSpec := by
  have hlegal : decode ⟨0x4328, 0⟩ = .ok (.add 3 1 2) ∧ decode ⟨0x0800, 0⟩ = .ok (.bro 0) ∧
      decode ⟨0x1f00, 0⟩ = .ok (.new 7 0) ∧ decode ⟨0x30e0, 0⟩ = .ok (.val 7) ∧
      decode ⟨0x3f20, 0⟩ = .ok (.mov 7 1) ∧ decode ⟨0x6020, 0⟩ = .ok (.recip 0 1) ∧
      decode ⟨0x7804, 0⟩ = .ok (.eq 0 1) ∧ decode ⟨0x57fc, 0⟩ = .ok (.sub 7 7 7) := by decide
  have hillegal : decode ⟨0x0000, 0⟩ = .error .unassignedOpcode ∧ decode ⟨0xffff, 0⟩ = .error .unassignedOpcode ∧
      decode ⟨0x432a, 0⟩ = .error .reservedBits ∧ decode ⟨0x6004, 0⟩ = .error .reservedBits := by decide
  obtain ⟨hadd, hbro, hnew, hval, hmov, hrecip, heq, hsub⟩ := hlegal
  obtain ⟨hzeros, hones, hreserved, hrs2⟩ := hillegal
  intro d
  exact ⟨decode_ok_data hadd d, decode_ok_data hbro d, decode_ok_data hnew d, decode_ok_data hval d,
    decode_ok_data hmov d, decode_ok_data hrecip d, decode_ok_data heq d, decode_ok_data hsub d,
    decode_error_data hzeros d, decode_error_data hones d, decode_error_data hreserved d, decode_error_data hrs2 d⟩

namespace Machine

/-! ### The step of an illegal word -/

/-- A running core that is offered a word whose fields are not well formed enters the fault with cause 1 (R167, R170). -/
theorem step_of_not_wellFormed {s : State} {c : Command} {rest : List HostEvent} (h : s.inputs = .command c :: rest)
    (hf : s.faultFlag = false) (hc : (CmdFields.ofWord c.cmd).wellFormed = false) :
    ∃ t, step s = .next t ∧ FaultEntered 1 c.cmd { s with inputs := rest } t := by
  cases hd : decode c with
  | ok i => exact absurd ((decoderAgreesWithTheFieldChecks c).1 ⟨i, hd⟩) (by simp [hc])
  | error e => exact ⟨_, (step_command h hf).trans (runCommand_error hd _), raiseFault_entered .illegalCommand _ _⟩

/-- Settles O5: a failed field check makes the word illegal, a legal word is its instruction's one encoding, and
`legalWords` lists the legal words. -/
theorem reservedBitsAreIllegalAndCounted : Obligations.ReservedBitsAreIllegalAndCounted := by
  refine ⟨fun s c rest h hf _ hbits => ?_, fun w w' d i h h' => ?_, ?_⟩
  · refine step_of_not_wellFormed h hf ?_
    rcases hbits with hbit | hbit | hbit | hbit <;> simp [CmdFields.wellFormed, hbit]
  · exact (encodeWord_of_decode h).symm.trans (encodeWord_of_decode h')
  · exact ⟨legalWords, nodup_legalWords, length_legalWords, mem_legalWords⟩

/-- Settles O6: no format has such an opcode, so the word is not well formed. -/
theorem unassignedOpcodesAreIllegal : Obligations.UnassignedOpcodesAreIllegal := by
  refine ⟨fun s c rest h hf hop => step_of_not_wellFormed h hf ?_, by decide, by decide⟩
  rw [← toNat_opcodeField] at hop
  have hnone : fieldUse (CmdFields.ofWord c.cmd).opcode = none := fieldUse_unassigned _ hop
  simp [CmdFields.wellFormed, CmdFields.opcodeAssigned, hnone]

/-! ### The step of a legal word -/

/-- The data word matters to an accepted pair only through what the pair decodes to. -/
theorem runCommand_congr {w : CmdWord} {d d' : Word} (hd : decode ⟨w, d⟩ = decode ⟨w, d'⟩) (s : State) :
    runCommand ⟨w, d⟩ s = runCommand ⟨w, d'⟩ s := by
  simp only [runCommand, hd]

/-- Settles O8: a halted core stops, and a running one runs pairs that decode alike. -/
theorem registerCommandsIgnoreTheDataWord : Obligations.RegisterCommandsIgnoreTheDataWord := by
  intro s w d d' hw
  cases hf : s.faultFlag with
  | true => exact .inl ⟨step_halted hf (by simp), step_halted hf (by simp)⟩
  | false =>
    have hd : decode ⟨w, d⟩ = decode ⟨w, d'⟩ := (decode_of_opcode hw d).trans (decode_of_opcode hw d').symm
    have hrun : runCommand ⟨w, d⟩ s = runCommand ⟨w, d'⟩ s := runCommand_congr hd s
    obtain ⟨t, ht⟩ := runCommand_next ⟨w, d⟩ s
    exact .inr ⟨t, (step_offerNext _ s hf).trans ht, (step_offerNext _ s hf).trans (hrun.symm.trans ht)⟩

/-- Settles O34: a running core takes the pair off the port and runs what it decodes to. -/
theorem stepRunsTheDecodedCommand : Obligations.StepRunsTheDecodedCommand :=
  fun _ _ _ _ h hf hd => (step_command h hf).trans (runCommand_ok hd _)

/-! ### Pseudo-instructions -/

/-- The instruction of a mnemonic is that of its first row. -/
theorem asmPick_cons (m : List Char) (name : String) (i : Instr) (rows : List (String × Instr)) :
    asmPick m ((name, i) :: rows) = if name.toList = m then some i else asmPick m rows := by
  by_cases h : name.toList = m <;> simp [asmPick, h]

theorem asmPick_nil (m : List Char) : asmPick m [] = none := rfl

/-- Settles O54: each name is looked up among the rows of its operand form; that of `fromu8` is there for 0 to 255 only. -/
theorem pseudoInstructionsExpandAsStated : Obligations.PseudoInstructionsExpandAsStated := by
  intro a b c
  refine ⟨?_, ?_, fun k => ?_, ?_, ?_, ?_, ?_, ?_, ?_, ?_, ?_, ?_, ?_⟩
  case refine_3 => by_cases hk : k.toNat ≤ 255 <;> simp [asmInstr, asmPick_cons, asmPick_nil, hk]
  all_goals simp [asmInstr, asmPick_cons]

end Machine

end Sys2Proof
end

section
/-! The obligations of 40_reduction.md: the pass of the reduction engine, its two commands, and the widths of the
multiplier's passes (R80 to R87, R120, R122). -/

namespace Sys2Proof.Machine

section
variable (p : Params)

/-! ### One pass -/

/-- A word of `N` bits has no excess to fold (R81 (c)). -/
theorem bro_of_le {v : Word} (h : v.toNat ≤ p.fullMask) : bro p v = v :=
  BitVec.eq_of_toNat_eq ((bro_toNat p v).trans (foldOnce_of_le p h))

/-- A pass takes off the excess times the modulus (R81 (a)). -/
theorem bro_add (v : Word) : (bro p v).toNat + v.toNat / 2 ^ p.N * p.P = v.toNat := by
  rw [bro_toNat, foldOnce_add]

/-- A second pass leaves a word in the range of `rbp` (R81 (e)). -/
theorem bro_lt_two_P {v : Word} (h : v.toNat ≤ p.feMax) : (bro p v).toNat < 2 * p.P :=
  (bro_le_fullMask p h).trans_lt (fullMask_lt_two_P p)

/-! ### The conditional subtraction -/

/-- `rbp` subtracts from `P` up to `P + 2^63`: the sign bit of the difference is 0 (R85). -/
theorem rbp_toNat_of_sub {v : Word} (hP : p.P ≤ v.toNat) (h63 : v.toNat < p.P + 2 ^ 63) :
    (rbp p v).toNat = v.toNat - p.P := by
  rw [rbp_toNat, if_neg hP.not_gt, if_pos h63]

/-- `rbp` keeps a word from `P + 2^63` up: the sign bit of the difference is 1 (R85). -/
theorem rbp_of_ge {v : Word} (h : p.P + 2 ^ 63 ≤ v.toNat) : rbp p v = v := by
  refine BitVec.eq_of_toNat_eq ?_
  rw [rbp_toNat, if_neg (by omega), if_neg h.not_gt]

/-- Two passes and `rbp` canonicalise any word (R87): the first pass makes it a stored element. -/
theorem rbp_bro_bro_toNat (v : Word) : (rbp p (bro p (bro p v))).toNat = v.toNat % p.P :=
  (value_toNat p (bro_le_feMax p v)).trans (bro_mod p v)

/-! ### The product of two stored elements -/

/-- Each factor is below `2^63`, by V6 (R122). -/
theorem mul_lt_two_pow_126 {x y : Nat} (hx : x ≤ p.feMax) (hy : y ≤ p.feMax) : x * y < 2 ^ 126 :=
  calc x * y < 2 ^ 63 * 2 ^ 63 := Nat.mul_lt_mul'' (hx.trans_lt p.feMax_lt) (hy.trans_lt p.feMax_lt)
    _ = 2 ^ 126 := by norm_num

end

/-! ### The obligations -/

/-- Settles O9: `DOUT` is the pass of the data word, and a write of `DOUT` leaves the rest. -/
theorem broWritesTheReducedWord : Obligations.BroWritesTheReducedWord := by
  intro s data
  refine ⟨decode_ok_data (i := .bro 0) (by decide) data, s.setDout (bro s.params data), rfl, ?_⟩
  rw [setDout_dout]
  exact ⟨by rw [bro_toNat, reduceOnce_eq], bro_mod _ data, bro_le_feMax _ data, bro_of_le _, setDout_onlyDout s _⟩

/-- Settles O10: below `2P` the result is the residue, and above it the sign bit of the difference selects. -/
theorem rbpOnEveryDataWord : Obligations.RbpOnEveryDataWord := by
  intro s data
  refine ⟨decode_ok_data (i := .rbp 0) (by decide) data, s.setDout (rbp s.params data), rfl, setDout_onlyDout s _, ?_⟩
  rw [setDout_dout]
  exact ⟨rbp_toNat_of_lt _, fun h2P => rbp_toNat_of_sub _ (by omega), rbp_of_ge _, rbp_bro_bro_toNat _ data⟩

/-- Settles O11: one lemma for each of R81 (a) to (e). -/
theorem broPassesShrinkAndKeepResidues : Obligations.BroPassesShrinkAndKeepResidues :=
  fun p v => ⟨bro_add p v, bro_mod p v, bro_le_feMax p v, bro_of_le p,
    fun h => ⟨bro_le_fullMask p h, bro_lt_two_P p h⟩⟩

/-- Settles O24: a pass never exceeds its argument, so the wide passes are exact, and two of them shrink a product of
stored elements to a word. -/
theorem multiplierWidthsSuffice : Obligations.MultiplierWidthsSuffice := by
  intro p a b ha hb
  simp only [bro128_toNat, wideProduct_toNat, reduceOnce_eq, true_and]
  exact ⟨mul_lt_two_pow_126 p ha hb, foldTwice_lt p (Nat.mul_le_mul ha hb)⟩

end Sys2Proof.Machine
end

section
/-! The obligations of 41_construct_canon.md: construction, canonicalisation, copy and equality (R96 to R102), and the
sampling loop that rejects every draw (R151, R152). -/

namespace Sys2Proof

/-! ### Command words written as sums -/

/-- The fields of a word stand at the powers of two of their bit positions (R56). -/
theorem ofFields_eq_ofNat (op : BitVec 5) (rd rs1 rs2 : RegIdx) : ofFields op rd rs1 rs2 0 =
    BitVec.ofNat 16 (2048 * op.toNat + 256 * rd.toNat + 32 * rs1.toNat + 4 * rs2.toNat) := by
  have hrd := rd.isLt
  have hrs1 := rs1.isLt
  have hrs2 := rs2.isLt
  have hzero : (0 : BitVec 2).toNat = 0 := rfl
  refine BitVec.eq_of_toNat_eq ?_
  simp only [ofFields, BitVec.toNat_append, BitVec.toNat_ofNat, hzero, Nat.or_zero]
  rw [← Nat.shiftLeft_add_eq_or_of_lt hrd, ← Nat.shiftLeft_add_eq_or_of_lt hrs1, ← Nat.shiftLeft_add_eq_or_of_lt hrs2]
  simp only [Nat.shiftLeft_eq]
  omega

/-- The word that the spec writes as the sum of an instruction's fields decodes to the instruction (R59). -/
theorem decode_ofNat (i : Instr) {n : Nat} (hn : n = 2048 * i.opcode.toNat + 256 * (i.dest.getD 0).toNat +
    32 * (i.sources.getD 0 0).toNat + 4 * (i.sources.getD 1 0).toNat) (d : Word) :
    decode ⟨BitVec.ofNat 16 n, d⟩ = .ok (i.withData d) := by
  rw [hn, ← ofFields_eq_ofNat, ← encodeWord_eq_ofFields, decode_encodeWord]

namespace Machine

/-! ### Canonical words -/

section
variable (p : Params)

/-- A canonical word has no excess, so `bro` keeps it. -/
theorem bro_of_lt_P {v : Word} (h : v.toNat < p.P) : bro p v = v := bro_of_le p (h.trans p.P_lt_fullMask).le

/-- Canonicalisation keeps a canonical word (R102). -/
theorem value_of_lt_P {v : Word} (h : v.toNat < p.P) : value p v = v := by
  refine BitVec.eq_of_toNat_eq ?_
  rw [value_toNat p (h.le.trans (P_le_feMax p)), Nat.mod_eq_of_lt h]

end

/-! ### The checked store -/

section
variable (rd : RegIdx) {m : Word} {s : State}

/-- A word below `P` is stored, and `OK` set (R97). -/
theorem storeChecked_accepts (h : m.toNat < s.params.P) :
    (storeChecked rd m s).reg rd = m ∧ (storeChecked rd m s).okFlag = true ∧
      OnlyOkFlagAndRegister rd s (storeChecked rd m s) := by
  rw [storeChecked_of_lt h]
  exact ⟨by simp, okFlag_setOk _ _, setReg_setOk_only s rd m true⟩

/-- Any other word clears `OK` and writes no register (R97). -/
theorem storeChecked_rejects (h : s.params.P ≤ m.toNat) :
    (storeChecked rd m s).okFlag = false ∧ OnlyOkFlag s (storeChecked rd m s) := by
  rw [storeChecked_of_not_lt h.not_gt]
  exact ⟨okFlag_setOk _ _, setOk_onlyOkFlag s false⟩

/-- Only an accepted word leaves `OK` set, and it is then in the register. -/
theorem storeChecked_of_okFlag (h : (storeChecked rd m s).okFlag = true) :
    (storeChecked rd m s).reg rd = m ∧ m.toNat < s.params.P := by
  by_cases hm : m.toNat < s.params.P
  · exact ⟨(storeChecked_accepts rd hm).1, hm⟩
  · have hok : (storeChecked rd m s).okFlag = false := (storeChecked_rejects rd (not_lt.1 hm)).1
    exact absurd (hok.symm.trans h) (by decide)

end

/-! ### The construction commands -/

/-- Settles O12: the register written holds one pass of the data word. -/
theorem newStoresTheReducedWord : Obligations.NewStoresTheReducedWord := by
  intro s rd data
  refine ⟨decode_ofNat (.new rd data) rfl data, s.setReg rd (bro s.params data), rfl, ?_⟩
  rw [reg_setReg_same]
  exact ⟨by rw [bro_toNat, reduceOnce_eq], bro_mod _ data, bro_le_feMax _ data, setReg_onlyRegister s rd _⟩

/-- Settles O13: `FRED` is the checked store of the data word. -/
theorem fredStoresOnlyReducedWords : Obligations.FredStoresOnlyReducedWords := fun s rd data =>
  ⟨decode_ofNat (.fred rd data) rfl data, fun h => ⟨storeChecked rd data s, rfl, storeChecked_accepts rd h⟩,
    fun h => ⟨storeChecked rd data s, rfl, storeChecked_rejects rd h⟩⟩

/-- Settles O14: `FUNB` is the checked store of the masked word; the rejected values are the `2^N - P` from `P` on. -/
theorem funbMasksAndChecks : Obligations.FunbMasksAndChecks := by
  refine ⟨fun s rd data => ⟨decode_ofNat (.funb rd data) rfl data, ?_⟩, fun p => ?_⟩
  · rw [← maskedData_toNat]
    refine ⟨fun h => ?_, fun h => ⟨storeChecked rd _ s, rfl, storeChecked_rejects rd h⟩⟩
    obtain ⟨hreg, hok, honly⟩ := storeChecked_accepts rd h
    exact ⟨storeChecked rd _ s, rfl, congrArg BitVec.toNat hreg, hok, honly⟩
  · rw [← p.P_add, Nat.add_sub_cancel_left]

/-! ### Canonicalisation, copy and equality -/

/-- Settles O15: the value of a stored element is its residue, which is below `P`. -/
theorem valGivesTheCanonicalResidue : Obligations.ValGivesTheCanonicalResidue := by
  intro s rs1 data hs
  have hlt := value_lt s.params (hs rs1)
  refine ⟨decode_ofNat (.val rs1) rfl data, s.setDout (value s.params (s.reg rs1)), rfl, ?_⟩
  rw [setDout_dout]
  exact ⟨rfl, value_toNat _ (hs rs1), hlt, hlt.trans s.params.P_lt_two_pow_N, setDout_onlyDout s _⟩

/-- Writing back what a register holds changes nothing. -/
theorem setReg_self (s : State) (r : RegIdx) : s.setReg r (s.reg r) = s := by
  simp [State.setReg, State.reg]

/-- Settles O16: the content of the source is written as it is. -/
theorem movCopiesTheContent : Obligations.MovCopiesTheContent := by
  intro s rd rs1 data
  refine ⟨decode_ofNat (.mov rd rs1) rfl data, s.setReg rd (s.reg rs1), rfl, reg_setReg_same _ _ _,
    setReg_onlyRegister s rd _, ?_⟩
  rintro rfl
  exact setReg_self s rd

/-- Settles O17: the flag is the comparison of the values, which for stored elements is that of the residues. -/
theorem eqComparesResidues : Obligations.EqComparesResidues := by
  intro s rs1 rs2 data hs
  refine ⟨decode_ofNat (.eq rs1 rs2) rfl data, s.setEq (value s.params (s.reg rs1) == value s.params (s.reg rs2)), rfl,
    setEq_onlyEqFlag s _, ?_⟩
  rw [eqFlag_setEq, beq_iff_eq]
  exact ⟨Iff.rfl, value_eq_iff _ (hs rs1) (hs rs2)⟩

/-- Settles O18: the checked store keeps or rejects the word, and a canonical word is kept by `bro` and by `value`. -/
theorem constructionRoundTrips : Obligations.ConstructionRoundTrips := by
  intro s rd v
  refine ⟨fun h => ?_, fun h => ⟨storeChecked rd v s, rfl, (storeChecked_rejects rd h).1⟩, fun t ht hok => ?_, fun h => ?_⟩
  · obtain ⟨hreg, hok, honly⟩ := storeChecked_accepts rd h
    have hp : (storeChecked rd v s).params = s.params := congrArg CoreParams.toParams honly.build
    refine ⟨storeChecked rd v s, _, rfl, hok, rfl, ?_⟩
    rw [setDout_dout, hreg, hp, value_of_lt_P _ h]
  · obtain rfl : storeChecked rd (maskedData s.params v) s = t := Host.Outcome.next.inj ht
    obtain ⟨hreg, hlt⟩ := storeChecked_of_okFlag rd hok
    rw [hreg, value_of_lt_P _ hlt]
    exact ⟨hlt, hlt⟩
  · have hlt := value_lt s.params h
    obtain ⟨hreg, hok, -⟩ := storeChecked_accepts rd hlt
    refine ⟨s.setReg rd (bro s.params (value s.params (s.reg rd))), rfl, ⟨_, rfl, hok, ?_⟩, ?_⟩
    · rw [hreg, reg_setReg_same, bro_of_lt_P _ hlt]
    · rw [reg_setReg_same, bro_of_lt_P _ hlt, value_of_lt_P _ hlt]

/-! ### The sampling loop on rejected draws -/

section
variable {s : State} (hf : s.faultFlag = false)
include hf

/-- A running core executes the command that the host issues. -/
theorem issue_of_running (i : Instr) : issue i s = exec i s :=
  (step_offerNext _ s hf).trans (runCommand_ok (decodeOfEncodeIsTheInstruction i) s)

/-- `random` enters its loop with 0 in the register (R151). -/
theorem runRandom_of_running (fd : RegIdx) (draws : List Word) :
    runRandom fd draws s = sampleLoop fd draws (s.setReg fd 0) := by
  have hzero : bro s.params 0 = 0 := bro_of_lt_P _ s.params.P_pos
  have hexec : exec (.new fd 0) s = .next (s.setReg fd (bro s.params 0)) := rfl
  rw [runRandom, issue_of_running hf, hexec, hzero, andThen]

/-- A rejected draw clears `OK`, and the loop goes on (R98, R151). -/
theorem sampleLoop_cons_of_rejected (fd : RegIdx) {w : Word} (hw : s.params.P ≤ w.toNat % 2 ^ s.params.N)
    (ws : List Word) : sampleLoop fd (w :: ws) s = sampleLoop fd ws (s.setOk false) := by
  rw [← maskedData_toNat] at hw
  have hexec : exec (.funb fd w) s = .next (s.setOk false) :=
    congrArg Host.Outcome.next (storeChecked_of_not_lt hw.not_gt)
  rw [sampleLoop, issue_of_running hf, hexec, andThen, okFlag_setOk]
  rfl

end

/-- The state in which the loop meets the next draw after the draws `bad`, all rejected. -/
def afterRejected (bad : List Word) (s : State) : State := if bad = [] then s else s.setOk false

/-- Rejected draws do no more than clear `OK` (R98, R152). -/
theorem sampleLoop_append_of_rejected (fd : RegIdx) (bad rest : List Word) : ∀ s : State, s.faultFlag = false →
    (∀ x ∈ bad, s.params.P ≤ x.toNat % 2 ^ s.params.N) →
    sampleLoop fd (bad ++ rest) s = sampleLoop fd rest (afterRejected bad s) := by
  induction bad with
  | nil => exact fun s _ _ => rfl
  | cons x xs ih =>
    intro s hf hbad
    obtain ⟨hx, hxs⟩ := List.forall_mem_cons.1 hbad
    have hstate : afterRejected xs (s.setOk false) = afterRejected (x :: xs) s := by
      simp [afterRejected, setOk_idem]
    rw [List.cons_append, sampleLoop_cons_of_rejected hf fd hx, ih (s.setOk false) (by simpa using hf) hxs, hstate]

/-- Settles O57: the loop is left at the end of the draws, with the 0 of `NEW` in the register. -/
theorem rejectedDrawsKeepTheLoopRunning : Obligations.RejectedDrawsKeepTheLoopRunning := by
  intro s fd bad hf hbad
  refine ⟨afterRejected bad (s.setReg fd 0), ?_, ?_⟩
  · rw [runRandom_of_running hf]
    simpa [sampleLoop] using sampleLoop_append_of_rejected fd bad [] (s.setReg fd 0) hf hbad
  · by_cases hnil : bad = []
    · obtain ⟨others, dout, status, fcmd, build, inputs⟩ := setReg_onlyRegister s fd 0
      rw [afterRejected, if_pos hnil]
      exact ⟨reg_setReg_same s fd 0, fun hne => absurd hnil hne, others, dout, fun k _ => by rw [status], fcmd, build,
        inputs⟩
    · rw [afterRejected, if_neg hnil]
      exact ⟨reg_setReg_same s fd 0, fun _ => okFlag_setOk _ _, setReg_setOk_only s fd 0 false⟩

end Machine

end Sys2Proof
end

section
/-! The obligations of 42_addsub.md: addition, negation and subtraction (R110 to R116). -/

namespace Sys2Proof.Machine

section
variable (p : Params)

/-! ### Zero elements -/

/-- A pass never makes 0 of a positive value: what it folds in is not lost. -/
theorem foldOnce_pos {v : Nat} (h : 0 < v) : 0 < foldOnce p v := by
  rw [foldOnce_eq]
  rcases Nat.lt_or_ge v (2 ^ p.N) with hv | hv
  · rw [Nat.mod_eq_of_lt hv]
    exact Nat.add_pos_left h _
  · have hq : 0 < v / 2 ^ p.N := Nat.div_pos hv (Nat.two_pow_pos _)
    exact Nat.add_pos_right _ (Nat.mul_pos hq (Nat.succ_pos _))

/-- One pass brings the positive multiples of `P` up to `2P` to `P`: the result is a positive multiple below `2P`
(R114, R115). -/
theorem foldOnce_eq_P {v : Nat} (hpos : 0 < v) (hle : v ≤ 2 * p.P) (hmod : v % p.P = 0) : foldOnce p v = p.P := by
  have hdvd : p.P ∣ foldOnce p v := Nat.dvd_of_mod_eq_zero ((foldOnce_mod p v).trans hmod)
  have hlt : foldOnce p v < 2 * p.P := (foldOnce_le_fullMask p hle).trans_lt (fullMask_lt_two_P p)
  exact Nat.eq_of_dvd_of_lt_two_mul (foldOnce_pos p hpos).ne' hdvd hlt

/-! ### Negation -/

section
variable {a : Word} (ha : a.toNat ≤ p.feMax)
include ha

/-- V6 is strict, so the minuend of a negation exceeds its argument. -/
theorem two_P_sub_pos : 0 < 2 * p.P - a.toNat := Nat.sub_pos_of_lt (ha.trans_lt p.feMax_lt_two_P)

/-- No negation has content 0 (R114). -/
theorem fneg_pos : 0 < (fneg p a).toNat := by
  rw [fneg_toNat p ha]
  exact foldOnce_pos p (two_P_sub_pos p ha)

/-- The negation of either zero element has content `P` (R114). -/
theorem fneg_toNat_of_zero (hzero : a.toNat % p.P = 0) : (fneg p a).toNat = p.P := by
  rw [fneg_toNat p ha]
  refine foldOnce_eq_P p (two_P_sub_pos p ha) (Nat.sub_le _ _) ?_
  exact Nat.sub_mod_eq_zero_of_mod_eq ((Nat.mul_mod_left 2 p.P).trans hzero.symm)

/-- An element and its negation add up to at most `2P`: a pass never exceeds its argument. -/
theorem add_fneg_le : a.toNat + (fneg p a).toNat ≤ 2 * p.P := by
  rw [fneg_toNat p ha]
  have hpass := foldOnce_le_self p (2 * p.P - a.toNat)
  have hV6 := p.feMax_le
  omega

/-! ### Subtraction -/

/-- An element minus itself has content `P`, not 0 (R115). -/
theorem fsub_self_toNat : (fsub p a a).toNat = p.P := by
  rw [fsub, fadd_toNat p ha (fneg_le p a)]
  refine foldOnce_eq_P p (Nat.add_pos_right _ (fneg_pos p ha)) (add_fneg_le p ha) ?_
  rw [Nat.add_comm, fneg_mod p ha]

end

/-! ### The group laws -/

theorem fadd_comm (a b : Word) : fadd p a b = fadd p b a := congrArg (bro p) (BitVec.add_comm a b)

section
variable {a b c : Word}

/-- Both sides have the residue of the exact sum of the three contents (R116). -/
theorem value_fadd_assoc (ha : a.toNat ≤ p.feMax) (hb : b.toNat ≤ p.feMax) (hc : c.toNat ≤ p.feMax) :
    value p (fadd p (fadd p a b) c) = value p (fadd p a (fadd p b c)) := by
  refine (value_eq_iff p (fadd_le p _ c) (fadd_le p a _)).2 ?_
  have hab : (fadd p a b).toNat ≡ a.toNat + b.toNat [MOD p.P] := fadd_mod p ha hb
  have hbc : (fadd p b c).toNat ≡ b.toNat + c.toNat [MOD p.P] := fadd_mod p hb hc
  calc (fadd p (fadd p a b) c).toNat
      ≡ (fadd p a b).toNat + c.toNat [MOD p.P] := fadd_mod p (fadd_le p a b) hc
    _ ≡ a.toNat + b.toNat + c.toNat [MOD p.P] := hab.add_right _
    _ = a.toNat + (b.toNat + c.toNat) := Nat.add_assoc _ _ _
    _ ≡ a.toNat + (fadd p b c).toNat [MOD p.P] := hbc.symm.add_left _
    _ ≡ (fadd p a (fadd p b c)).toNat [MOD p.P] := (fadd_mod p ha (fadd_le p b c)).symm

/-- Adding 0 leaves a pass of the element, which has the element's residue (R116). -/
theorem value_fadd_zero (ha : a.toNat ≤ p.feMax) : value p (fadd p a 0) = value p a := by
  have hbro : fadd p a 0 = bro p a := congrArg (bro p) (BitVec.add_zero a)
  rw [hbro]
  exact (value_eq_iff p (bro_le_feMax p a) ha).2 (bro_mod p a)

/-- An element and its negation add up to the content `P`, whose residue is 0 (R116). -/
theorem value_fadd_fneg (ha : a.toNat ≤ p.feMax) : value p (fadd p a (fneg p a)) = 0 := by
  refine BitVec.eq_of_toNat_eq ?_
  rw [value_toNat p (fadd_le p _ _), ← fsub, fsub_self_toNat p ha, Nat.mod_self]
  rfl

end

end

/-! ### The obligations -/

/-- Settles O19: the destination holds a pass of the exact sum, and a register write leaves the rest. -/
theorem addWritesTheFieldSum : Obligations.AddWritesTheFieldSum := by
  intro s rd rs1 rs2 data hs
  refine ⟨decode_ofNat (.add rd rs1 rs2) rfl data, s.setReg rd (fadd s.params (s.reg rs1) (s.reg rs2)), rfl,
    setReg_onlyRegister s rd _, ?_⟩
  rw [reg_setReg_same, reduceOnce_eq]
  exact ⟨fadd_toNat _ (hs rs1) (hs rs2), fadd_mod _ (hs rs1) (hs rs2), fadd_le _ _ _⟩

/-- Settles O20: V6 keeps `2P - a` from wrapping, and of a zero element it is a positive multiple of `P`. -/
theorem negWritesTheAdditiveInverse : Obligations.NegWritesTheAdditiveInverse := by
  intro s rd rs1 data hs
  refine ⟨decode_ofNat (.neg rd rs1) rfl data, s.setReg rd (fneg s.params (s.reg rs1)), rfl,
    setReg_onlyRegister s rd _, (hs rs1).trans s.params.feMax_le, ?_⟩
  rw [reg_setReg_same, reduceOnce_eq]
  exact ⟨fneg_toNat _ (hs rs1), fneg_mod _ (hs rs1), fneg_le _ _, fneg_toNat_of_zero _ (hs rs1)⟩

/-- Settles O21: one pass after the negation and one after the addition. -/
theorem subWritesTheFieldDifference : Obligations.SubWritesTheFieldDifference := by
  intro s rd rs1 rs2 data hs
  refine ⟨decode_ofNat (.sub rd rs1 rs2) rfl data, s.setReg rd (fsub s.params (s.reg rs1) (s.reg rs2)), rfl,
    setReg_onlyRegister s rd _, ?_⟩
  rw [reg_setReg_same, reduceOnce_eq, reduceOnce_eq]
  refine ⟨fsub_toNat _ (hs rs1) (hs rs2), fsub_mod _ (hs rs1) (hs rs2), fsub_le _ _ _, ?_⟩
  rintro rfl
  exact fsub_self_toNat _ (hs rs1)

/-- Settles O22: one lemma for each law, commutativity holding of the contents already. -/
theorem additionLawsHoldOfResidues : Obligations.AdditionLawsHoldOfResidues :=
  fun p a b _ ha hb hc => ⟨congrArg (value p) (fadd_comm p a b), value_fadd_assoc p ha hb hc, value_fadd_zero p ha,
    value_fadd_fneg p ha⟩

end Sys2Proof.Machine
end

section
/-! The obligations of 43_multiply.md: the field product and the laws of multiplication (R120 to R123). -/

namespace Sys2Proof.Machine

section
variable (p : Params)

/-! ### The laws of multiplication -/

theorem fmul_comm (a b : Word) : fmul p a b = fmul p b a := by
  have hproduct : wideProduct a b = wideProduct b a := BitVec.mul_comm _ _
  rw [fmul, hproduct, ← fmul]

section
variable {a b c : Word}

/-- Both sides have the residue of the exact product of the three contents (R123). -/
theorem value_fmul_assoc (ha : a.toNat ≤ p.feMax) (hb : b.toNat ≤ p.feMax) (hc : c.toNat ≤ p.feMax) :
    value p (fmul p (fmul p a b) c) = value p (fmul p a (fmul p b c)) := by
  refine (value_eq_iff p (fmul_le p _ c) (fmul_le p a _)).2 ?_
  have hab : (fmul p a b).toNat ≡ a.toNat * b.toNat [MOD p.P] := fmul_mod p ha hb
  have hbc : (fmul p b c).toNat ≡ b.toNat * c.toNat [MOD p.P] := fmul_mod p hb hc
  calc (fmul p (fmul p a b) c).toNat
      ≡ (fmul p a b).toNat * c.toNat [MOD p.P] := fmul_mod p (fmul_le p a b) hc
    _ ≡ a.toNat * b.toNat * c.toNat [MOD p.P] := hab.mul_right _
    _ = a.toNat * (b.toNat * c.toNat) := Nat.mul_assoc _ _ _
    _ ≡ a.toNat * (fmul p b c).toNat [MOD p.P] := hbc.symm.mul_left _
    _ ≡ (fmul p a (fmul p b c)).toNat [MOD p.P] := (fmul_mod p ha (fmul_le p b c)).symm

/-- The product with 1 may be another representative, but of the same residue (R123). -/
theorem value_fmul_one (ha : a.toNat ≤ p.feMax) : value p (fmul p a 1) = value p a := by
  refine (value_eq_iff p (fmul_le p a 1) ha).2 ?_
  have hone : (1 : Word).toNat = 1 := rfl
  rw [fmul_mod p ha (one_le_feMax p), hone, Nat.mul_one]

/-- Both sides have the residue of the exact sum of the two products (R123). -/
theorem value_fmul_fadd (ha : a.toNat ≤ p.feMax) (hb : b.toNat ≤ p.feMax) (hc : c.toNat ≤ p.feMax) :
    value p (fmul p a (fadd p b c)) = value p (fadd p (fmul p a b) (fmul p a c)) := by
  refine (value_eq_iff p (fmul_le p a _) (fadd_le p _ _)).2 ?_
  have hsum : (fadd p b c).toNat ≡ b.toNat + c.toNat [MOD p.P] := fadd_mod p hb hc
  have hab : (fmul p a b).toNat ≡ a.toNat * b.toNat [MOD p.P] := fmul_mod p ha hb
  have hac : (fmul p a c).toNat ≡ a.toNat * c.toNat [MOD p.P] := fmul_mod p ha hc
  calc (fmul p a (fadd p b c)).toNat
      ≡ a.toNat * (fadd p b c).toNat [MOD p.P] := fmul_mod p ha (fadd_le p b c)
    _ ≡ a.toNat * (b.toNat + c.toNat) [MOD p.P] := hsum.mul_left _
    _ = a.toNat * b.toNat + a.toNat * c.toNat := Nat.mul_add _ _ _
    _ ≡ (fmul p a b).toNat + (fmul p a c).toNat [MOD p.P] := (hab.add hac).symm
    _ ≡ (fadd p (fmul p a b) (fmul p a c)).toNat [MOD p.P] := (fadd_mod p (fmul_le p a b) (fmul_le p a c)).symm

end

end

/-! ### The obligations -/

/-- Settles O23: the three passes of the multiplier lose nothing of the exact product, and a register write leaves the
rest. -/
theorem mulWritesTheFieldProduct : Obligations.MulWritesTheFieldProduct := by
  intro s rd rs1 rs2 data hs
  refine ⟨decode_ofNat (.mul rd rs1 rs2) rfl data, s.setReg rd (fmul s.params (s.reg rs1) (s.reg rs2)), rfl,
    setReg_onlyRegister s rd _, ?_⟩
  simp only [reg_setReg_same, reduceOnce_eq]
  exact ⟨fmul_toNat _ (hs rs1) (hs rs2), fmul_mod _ (hs rs1) (hs rs2), fmul_le _ _ _⟩

/-- Settles O25: one lemma for each law, commutativity holding of the contents already. -/
theorem multiplicationLawsHoldOfResidues : Obligations.MultiplicationLawsHoldOfResidues :=
  fun p a b _ ha hb hc => ⟨congrArg (value p) (fmul_comm p a b), value_fmul_assoc p ha hb hc, value_fmul_one p ha,
    value_fmul_fadd p ha hb hc⟩

end Sys2Proof.Machine
end

section
/-! The obligations of 44_exp_inverse.md: the exponent's bits, the chain, the zero test, and inversion and division (R130 to
R137). -/

namespace Sys2Proof

/-! ### Command words written as sums -/

/-- An encoding is the sum of its fields at their bit positions (R56, R59). -/
theorem encodeWord_eq_ofNat (i : Instr) {n : Nat} (hn : n = 2048 * i.opcode.toNat + 256 * (i.dest.getD 0).toNat +
    32 * (i.sources.getD 0 0).toNat + 4 * (i.sources.getD 1 0).toNat) : encodeWord i = BitVec.ofNat 16 n := by
  rw [hn, ← ofFields_eq_ofNat, ← encodeWord_eq_ofFields]

/-! ### The exponent -/

/-- A test holds below `n` at all but the listed entries, those at which it fails. -/
theorem countP_range_add_length {n : Nat} {q : Nat → Bool} {l : List Nat} (hl : l.Nodup)
    (hmem : ∀ i, i ∈ l ↔ i < n ∧ q i = false) : (List.range n).countP q + l.length = n := by
  have hfails : (List.range n).countP (fun i => !q i) = l.length := by
    rw [List.countP_eq_length_filter]
    refine ((List.perm_ext_iff_of_nodup (List.nodup_range.filter _) hl).2 fun i => ?_).length_eq
    simp [hmem]
  have hsplit := List.length_eq_countP_add_countP q (l := List.range n)
  simp only [List.length_range, Bool.not_eq_true, Bool.decide_eq_false, hfails] at hsplit
  exact hsplit.symm

namespace Machine

section
variable (p : Params)

/-- `E = 2^N − 2^B − 3` (R130). -/
theorem exponent_add : exponent p + 2 ^ p.B + 3 = 2 ^ p.N := by
  have hP := p.P_add
  have hgt := p.P_gt
  rw [exponent]
  omega

/-- `E` is the complement of `2^B + 2` in `N` bits (R130). -/
theorem exponentBit_eq {i : Nat} (hi : i < p.N) : exponentBit p i = !(2 ^ p.B + 2).testBit i := by
  have hE := exponent_add p
  have hcompl : exponent p = 2 ^ p.N - (2 ^ p.B + 2 + 1) := by omega
  rw [exponentBit, hcompl, Nat.testBit_two_pow_sub_succ (by omega)]
  simp [hi]

/-- The zero bits of `E` are 1 and `B` (R130). -/
theorem exponentBit_of_three_le (hB : 3 ≤ p.B) {i : Nat} (hi : i < p.N) :
    exponentBit p i = true ↔ i ≠ 1 ∧ i ≠ p.B := by
  have hlow : 2 ^ 1 < 2 ^ p.B := Nat.pow_lt_pow_right (by norm_num) (by omega)
  have hor : 2 ^ p.B + 2 = 2 ^ p.B ||| 2 ^ 1 := by simpa using Nat.two_pow_add_eq_or_of_lt hlow 1
  rw [exponentBit_eq p hi, hor, Nat.testBit_or, Nat.testBit_two_pow, Nat.testBit_two_pow]
  simp only [Bool.not_eq_true', Bool.or_eq_false_iff, decide_eq_false_iff_not]
  omega

/-- For `B = 1` the two ones of `2^B + 2` carry, and the zero bit of `E` is 2 (R130). -/
theorem exponentBit_of_one (hB : p.B = 1) {i : Nat} (hi : i < p.N) : exponentBit p i = true ↔ i ≠ 2 := by
  have hfour : 2 ^ 1 + 2 = 2 ^ 2 := rfl
  rw [exponentBit_eq p hi, hB, hfour, Nat.testBit_two_pow]
  simp only [Bool.not_eq_true', decide_eq_false_iff_not]
  omega

/-- `B` is 1 or at least 3 (V3, V4). -/
theorem B_eq_one_or_three_le : p.B = 1 ∨ 3 ≤ p.B := by
  have hpos := p.B_pos
  have hne := p.B_ne_two
  omega

/-- The top bit of `E` is above its zero bits (R130). -/
theorem exponentBit_top : exponentBit p (p.N - 1) = true := by
  have hN := p.N_ge
  have hB := p.B_lt
  rcases B_eq_one_or_three_le p with h1 | h3
  · exact (exponentBit_of_one p h1 (by omega)).2 (by omega)
  · exact (exponentBit_of_three_le p h3 (by omega)).2 (by omega)

/-- Two of the `N` bits are 0 when `B ≥ 3` (R130). -/
theorem countP_exponentBit_of_three_le (hB : 3 ≤ p.B) :
    ((List.range p.N).countP fun i => exponentBit p i) = p.N - 2 := by
  have hN := p.N_ge
  have hlt := p.B_lt
  have hcount : ((List.range p.N).countP fun i => exponentBit p i) + [1, p.B].length = p.N := by
    refine countP_range_add_length (List.nodup_cons.2 ⟨by rw [List.mem_singleton]; omega, List.nodup_singleton _⟩)
      fun i => ?_
    have hzero : i < p.N → (exponentBit p i = false ↔ i = 1 ∨ i = p.B) := fun hi => by
      rw [← Bool.not_eq_true, exponentBit_of_three_le p hB hi]; omega
    rw [and_congr_right hzero, List.mem_cons, List.mem_singleton]
    omega
  exact Nat.eq_sub_of_add_eq hcount

/-- One of the `N` bits is 0 when `B = 1` (R130). -/
theorem countP_exponentBit_of_one (hB : p.B = 1) :
    ((List.range p.N).countP fun i => exponentBit p i) = p.N - 1 := by
  have hN := p.N_ge
  have hcount : ((List.range p.N).countP fun i => exponentBit p i) + [2].length = p.N := by
    refine countP_range_add_length (List.nodup_singleton 2) fun i => ?_
    have hzero : i < p.N → (exponentBit p i = false ↔ i = 2) := fun hi => by
      rw [← Bool.not_eq_true, exponentBit_of_one p hB hi]; omega
    rw [and_congr_right hzero, List.mem_singleton]
    omega
  exact Nat.eq_sub_of_add_eq hcount

/-! ### The chain -/

/-- Step `i` of the loop on the scratch pair (running base, accumulator) (R131). -/
def chainLoopStep (xy : Word × Word) (i : Nat) : Word × Word :=
  (fmul p xy.1 xy.1, if exponentBit p i then fmul p xy.2 xy.1 else xy.2)

/-- The operations of a step are the step of the loop: the multiplication uses the base before its squaring (R131). -/
theorem foldl_chainStepOps (xy : Word × Word) (i : Nat) :
    (chainStepOps p i).foldl (chainApply p) xy = chainLoopStep p xy i := by
  cases h : exponentBit p i <;> simp [chainStepOps, chainLoopStep, chainApply, h]

/-- The operations of `k` steps are `k` rounds of the loop. -/
theorem foldl_chainOpsFrom (k : Nat) : ∀ (i : Nat) (xy : Word × Word),
    (chainOpsFrom p k i).foldl (chainApply p) xy = (List.range' i k).foldl (chainLoopStep p) xy := by
  induction k with
  | zero => exact fun i xy => rfl
  | succ k ih =>
    intro i xy
    rw [chainOpsFrom, List.foldl_append, foldl_chainStepOps, ih, List.range'_succ, List.foldl_cons]

theorem fpowPm2_eq_loop (a : Word) : fpowPm2 p a = ((List.range p.N).foldl (chainLoopStep p) (a, 1)).2 := by
  rw [fpowPm2, chainOps, foldl_chainOpsFrom, List.range_eq_range']

/-- The running base is squared `k` times in `k` steps (R131). -/
theorem chain_base_modEq (k : Nat) : ∀ (i : Nat) (x y : Word), x.toNat ≤ p.feMax →
    ((chainOpsFrom p k i).foldl (chainApply p) (x, y)).1.toNat ≡ x.toNat ^ 2 ^ k [MOD p.P] := by
  induction k with
  | zero => intro i x y _; simp [chainOpsFrom, Nat.ModEq.refl]
  | succ k ih =>
    intro i x y hx
    have hsquare : (fmul p x x).toNat ≡ x.toNat ^ 2 [MOD p.P] := by
      rw [pow_two]; exact fmul_mod p hx hx
    rw [chainOpsFrom, List.foldl_append, foldl_chainStepOps]
    calc _ ≡ (fmul p x x).toNat ^ 2 ^ k [MOD p.P] := ih (i + 1) (fmul p x x) _ (fmul_le p x x)
      _ ≡ (x.toNat ^ 2) ^ 2 ^ k [MOD p.P] := hsquare.pow _
      _ = x.toNat ^ 2 ^ (k + 1) := by rw [← pow_mul, pow_succ']

/-- One squaring for each step (R132). -/
theorem count_square_chainOpsFrom (k : Nat) : ∀ i, (chainOpsFrom p k i).count .square = k := by
  induction k with
  | zero => exact fun i => rfl
  | succ k ih =>
    intro i
    have hstep : (chainStepOps p i).count .square = 1 := by
      cases h : exponentBit p i <;> simp [chainStepOps, h]
    rw [chainOpsFrom, List.count_append, hstep, ih, Nat.add_comm]

/-- One multiplication for each one bit of the exponent (R132). -/
theorem count_multiply_chainOpsFrom (k : Nat) : ∀ i,
    (chainOpsFrom p k i).count .multiply = (List.range' i k).countP fun j => exponentBit p j := by
  induction k with
  | zero => exact fun i => rfl
  | succ k ih =>
    intro i
    have hstep : (chainStepOps p i).count .multiply = if exponentBit p i then 1 else 0 := by
      cases h : exponentBit p i <;> simp [chainStepOps, h]
    rw [chainOpsFrom, List.count_append, hstep, ih, List.range'_succ, List.countP_cons, Nat.add_comm]

theorem count_square_chainOps : (chainOps p).count .square = p.N := count_square_chainOpsFrom p p.N 0

theorem count_multiply_chainOps :
    (chainOps p).count .multiply = (List.range p.N).countP fun i => exponentBit p i := by
  rw [chainOps, count_multiply_chainOpsFrom, List.range_eq_range']

/-- Every operation is a squaring or a multiplication. -/
theorem length_eq_count_add_count (ops : List ChainOp) : ops.length = ops.count .square + ops.count .multiply := by
  induction ops with
  | nil => rfl
  | cons op ops ih => cases op <;> simp <;> omega

/-! ### Zero elements -/

/-- Under V6 the multiples of `P` among the stored contents are 0 and `P` (R136). -/
theorem mod_P_eq_zero_iff {v : Nat} (h : v ≤ p.feMax) : v % p.P = 0 ↔ v = 0 ∨ v = p.P := by
  constructor
  · intro hmod
    refine or_iff_not_imp_left.2 fun hne => ?_
    exact Nat.eq_of_dvd_of_lt_two_mul hne (Nat.dvd_of_mod_eq_zero hmod) (h.trans_lt p.feMax_lt_two_P)
  · rintro (rfl | rfl)
    · exact Nat.zero_mod _
    · exact Nat.mod_self _

/-! ### An element minus a quotient -/

/-- The difference of an element and a quotient, with the quotient added back, has the element's residue (R135). -/
theorem fsub_quotient_mod {a b : Word} (ha : a.toNat ≤ p.feMax) (hb : b.toNat ≤ p.feMax) :
    ((fsub p a (quotient p a b)).toNat + a.toNat * b.toNat ^ (p.P - 2)) % p.P = a.toNat % p.P := by
  have hquot : (quotient p a b).toNat ≡ a.toNat * b.toNat ^ (p.P - 2) [MOD p.P] := quotient_mod p ha hb
  exact (hquot.symm.add_left _).trans (fsub_mod p ha (quotient_le p a b))

/-! ### The inverse modulo a prime -/

/-- Fermat's little theorem, with one factor apart (R137). -/
theorem mul_pow_sub_two_modEq_one (hprime : p.PrimeModulus) {x : Nat} (hx : x % p.P ≠ 0) :
    x * x ^ (p.P - 2) ≡ 1 [MOD p.P] := by
  have hcoprime : x.Coprime p.P :=
    ((Nat.Prime.coprime_iff_not_dvd hprime).2 fun h => hx (Nat.mod_eq_zero_of_dvd h)).symm
  have hsucc : p.P - 2 + 1 = p.P - 1 := by have := p.P_gt; omega
  rw [← pow_succ', hsucc]
  exact Nat.ModEq.pow_card_sub_one_eq_one hprime hcoprime

section
variable {a b : Word} (hprime : p.PrimeModulus) (hb : b.toNat ≤ p.feMax) (hne : b.toNat % p.P ≠ 0)
include hprime hb hne

/-- The chain's result is the inverse of a nonzero element (R137). -/
theorem value_fmul_fpowPm2 : value p (fmul p b (fpowPm2 p b)) = 1 := by
  have hpow : (fpowPm2 p b).toNat ≡ b.toNat ^ (p.P - 2) [MOD p.P] := fpowPm2_mod p hb
  have hone : value p (1 : Word) = 1 := value_of_lt_P p (lt_of_lt_of_le (by decide) p.P_gt)
  rw [← hone]
  refine (value_eq_iff p (fmul_le p _ _) (one_le_feMax p)).2 ?_
  calc (fmul p b (fpowPm2 p b)).toNat
      ≡ b.toNat * (fpowPm2 p b).toNat [MOD p.P] := fmul_mod p hb (fpowPm2_le p hb)
    _ ≡ b.toNat * b.toNat ^ (p.P - 2) [MOD p.P] := hpow.mul_left _
    _ ≡ 1 [MOD p.P] := mul_pow_sub_two_modEq_one p hprime hne

/-- A quotient times its divisor has the dividend's residue (R137). -/
theorem value_fmul_quotient (ha : a.toNat ≤ p.feMax) : value p (fmul p (quotient p a b) b) = value p a := by
  have hquot : (quotient p a b).toNat ≡ a.toNat * b.toNat ^ (p.P - 2) [MOD p.P] := quotient_mod p ha hb
  refine (value_eq_iff p (fmul_le p _ _) ha).2 ?_
  calc (fmul p (quotient p a b) b).toNat
      ≡ (quotient p a b).toNat * b.toNat [MOD p.P] := fmul_mod p (quotient_le p a b) hb
    _ ≡ a.toNat * b.toNat ^ (p.P - 2) * b.toNat [MOD p.P] := hquot.mul_right _
    _ = a.toNat * (b.toNat * b.toNat ^ (p.P - 2)) := by ring
    _ ≡ a.toNat * 1 [MOD p.P] := (mul_pow_sub_two_modEq_one p hprime hne).mul_left _
    _ = a.toNat := Nat.mul_one _

end

end

/-! ### The guarded write -/

section
variable {s : State} (hs : s.Stored) {r : RegIdx}
include hs

theorem isZero_reg_of_ne (h : (s.reg r).toNat % s.params.P ≠ 0) : isZero s.params (s.reg r) = false :=
  Bool.eq_false_iff.2 fun hz => h ((isZero_iff _ (hs r)).1 hz)

/-- A divisor of nonzero residue lets the value be written. -/
theorem unlessZero_of_residue_ne (h : (s.reg r).toNat % s.params.P ≠ 0) (cmd : CmdWord) (rd : RegIdx) (v : Word) :
    unlessZero (s.reg r) cmd rd v s = .next (s.setReg rd v) :=
  unlessZero_of_nonzero (isZero_reg_of_ne hs h)

/-- A zero divisor enters the fault with cause 2 and writes no register (R166, R170). -/
theorem unlessZero_faults (h : (s.reg r).toNat % s.params.P = 0) {cmd w : CmdWord} (hw : cmd = w) (rd : RegIdx)
    (v : Word) : ∃ t, unlessZero (s.reg r) cmd rd v s = .next t ∧ FaultEntered 2 w s t := by
  subst hw
  exact ⟨_, unlessZero_of_zero ((isZero_iff _ (hs r)).2 h), raiseFault_entered .zeroDivisor cmd s⟩

end

/-! ### The obligations -/

/-- Settles O26: `E` is the complement of `2^B + 2`, whose one bits are listed for either kind of `B`. -/
theorem exponentBitPattern : Obligations.ExponentBitPattern :=
  fun p => ⟨exponent_add p, fun hB _ => exponentBit_of_three_le p hB, fun hB _ => exponentBit_of_one p hB,
    exponentBit_top p, countP_exponentBit_of_three_le p, countP_exponentBit_of_one p⟩

/-- Settles O27: the operations of a step are the loop's step, and each step squares the running base. -/
theorem chainComputesThePower : Obligations.ChainComputesThePower :=
  fun p a ha => ⟨fpowPm2_eq_loop p a, fun i _ => chain_base_modEq p i 0 a 1 ha, fpowPm2_mod p ha, fpowPm2_le p ha⟩

/-- Settles O28: the counts of the two operations, with the number of one bits of the exponent. -/
theorem chainOperationCounts : Obligations.ChainOperationCounts := by
  have hones := countP_exponentBit_of_three_le
  refine ⟨fun p => ⟨count_square_chainOps p, count_multiply_chainOps p, fun hB => ?_⟩, count_square_chainOps _, ?_⟩
  · have hN := p.N_ge
    rw [length_eq_count_add_count, count_square_chainOps, count_multiply_chainOps, hones p hB]
    omega
  · exact (count_multiply_chainOps _).trans (hones Config.reference (by decide))

/-- Settles O29: the zero test compares the value with 0, and a stored content is below `2P`. -/
theorem zeroElementsAreZeroAndP : Obligations.ZeroElementsAreZeroAndP :=
  fun p _ ha => ⟨beq_iff_eq, (isZero_iff p ha).trans (mod_P_eq_zero_iff p ha)⟩

/-- Settles O30: the zero test by the residue, then the chain's result is written or the fault entered. -/
theorem recipInvertsOrFaults : Obligations.RecipInvertsOrFaults := by
  intro s rd rs1 data hs
  refine ⟨decode_ofNat (.recip rd rs1) rfl data, fun hne => ?_, fun hzero => ?_⟩
  · refine ⟨_, unlessZero_of_residue_ne hs hne _ rd _, setReg_onlyRegister s rd _, ?_⟩
    rw [reg_setReg_same]
    exact ⟨rfl, fpowPm2_mod _ (hs rs1), fpowPm2_le _ (hs rs1)⟩
  · exact unlessZero_faults hs hzero (encodeWord_eq_ofNat (.recip rd rs1) rfl) rd _

/-- Settles O31: the zero test is of the divisor, whatever the dividend. -/
theorem divDividesOrFaults : Obligations.DivDividesOrFaults := by
  intro s rd rs1 rs2 data hs
  refine ⟨decode_ofNat (.div rd rs1 rs2) rfl data, fun hne => ?_, fun hzero => ?_⟩
  · refine ⟨_, unlessZero_of_residue_ne hs hne _ rd _, setReg_onlyRegister s rd _, ?_⟩
    rw [reg_setReg_same]
    exact ⟨rfl, quotient_mod _ (hs rs1) (hs rs2), quotient_le _ _ _⟩
  · exact unlessZero_faults hs hzero (encodeWord_eq_ofNat (.div rd rs1 rs2) rfl) rd _

/-- Settles O32: `DIV`'s zero test, then the dividend minus the quotient. -/
theorem remSubtractsTheQuotientOrFaults : Obligations.RemSubtractsTheQuotientOrFaults := by
  intro s rd rs1 rs2 data hs
  refine ⟨decode_ofNat (.rem rd rs1 rs2) rfl data, fun hne => ?_, fun hzero => ?_⟩
  · refine ⟨_, unlessZero_of_residue_ne hs hne _ rd _, setReg_onlyRegister s rd _, ?_⟩
    rw [reg_setReg_same]
    exact ⟨rfl, fsub_quotient_mod _ (hs rs1) (hs rs2), fsub_le _ _ _⟩
  · exact unlessZero_faults hs hzero (encodeWord_eq_ofNat (.rem rd rs1 rs2) rfl) rd _

/-- Settles O33: a core's modulus is prime, and the divisor's register keeps its content until it is multiplied. -/
theorem inversionAndDivisionAreConsistent : Obligations.InversionAndDivisionAreConsistent := by
  refine ⟨fun p a hprime ha hz => ?_, fun s rd rs1 rs2 hs hne hrd => ⟨?_, ?_⟩⟩
  · exact value_fmul_fpowPm2 p hprime ha fun hmod =>
      Bool.false_ne_true (hz.symm.trans ((isZero_iff p ha).2 hmod))
  · refine ⟨_, _, _, unlessZero_of_residue_ne hs hne _ rd _, rfl, rfl, ?_⟩
    simp only [setDout_dout, reg_setReg_same, reg_setReg_other s _ hrd.symm, setReg_params]
    exact value_fmul_fpowPm2 _ s.build.primeModulus (hs rs2) hne
  · refine ⟨_, _, _, unlessZero_of_residue_ne hs hne _ rd _, rfl, rfl, ?_⟩
    simp only [setDout_dout, reg_setReg_same, reg_setReg_other s _ hrd.symm, setReg_params]
    exact value_fmul_quotient _ s.build.primeModulus (hs rs2) hne (hs rs1)

end Machine

end Sys2Proof
end

section
/-! The obligations of 45_host_sequences.md: `random`, `share` and `sharernd` on draws of which one is accepted
(R151 to R154). -/

namespace Sys2Proof.Machine

/-! ### A later write replaces an earlier one -/

theorem setReg_setReg (s : State) (rd : RegIdx) (v w : Word) : (s.setReg rd v).setReg rd w = s.setReg rd w := by
  simp [State.setReg]

theorem statusSetOk_statusSetOk (b c : Bool) (st : BitVec 8) :
    statusSetOk c (statusSetOk b st) = statusSetOk c st :=
  status_ext (by simp) (by simp) (by simp) (by simp) (by simp)

theorem setOk_setOk (s : State) (b c : Bool) : (s.setOk b).setOk c = s.setOk c := by
  simp [State.setOk, statusSetOk_statusSetOk]

/-! ### The state after an accepted draw -/

/-- `s` with the low `N` bits of the draw `w` in `fd` and `OK` set: the end state of `random fd` (R151). -/
def afterAccepted (fd : RegIdx) (w : Word) (s : State) : State :=
  (s.setReg fd (maskedData s.params w)).setOk true

section
variable (fd : RegIdx) (w : Word) (s : State)

@[simp] theorem okFlag_afterAccepted : (afterAccepted fd w s).okFlag = true := okFlag_setOk _ _

@[simp] theorem faultFlag_afterAccepted : (afterAccepted fd w s).faultFlag = s.faultFlag := faultFlag_setOk _ _

theorem toNat_reg_afterAccepted_same : ((afterAccepted fd w s).reg fd).toNat = w.toNat % 2 ^ s.params.N := by
  rw [afterAccepted, reg_setOk, reg_setReg_same, maskedData_toNat]

theorem afterAccepted_only : OnlyOkFlagAndRegister fd s (afterAccepted fd w s) := setReg_setOk_only s fd _ true

theorem reg_afterAccepted_other {q : RegIdx} (hq : q ≠ fd) : (afterAccepted fd w s).reg q = s.reg q :=
  (afterAccepted_only fd w s).others q hq

/-- The accepted draw overwrites all that `random` wrote before it: the 0 of `NEW` and the `OK` of the rejected
draws (R151). -/
theorem afterAccepted_afterRejected (bad : List Word) :
    afterAccepted fd w (afterRejected bad (s.setReg fd 0)) = afterAccepted fd w s := by
  have hzero : afterAccepted fd w (s.setReg fd 0) = afterAccepted fd w s :=
    congrArg (State.setOk true) (setReg_setReg s fd 0 _)
  by_cases hnil : bad = []
  · rw [afterRejected, if_pos hnil, hzero]
  · rw [afterRejected, if_neg hnil, ← hzero]
    exact setOk_setOk ((s.setReg fd 0).setReg fd (maskedData s.params w)) false true

end

@[simp] theorem faultFlag_afterRejected (bad : List Word) (s : State) :
    (afterRejected bad s).faultFlag = s.faultFlag := by
  unfold afterRejected; split <;> simp

@[simp] theorem afterRejected_params (bad : List Word) (s : State) : (afterRejected bad s).params = s.params := by
  unfold afterRejected; split <;> rfl

/-! ### Sampling up to the accepted draw -/

section
variable {s : State} (hf : s.faultFlag = false) (fd : RegIdx) {w : Word}
  (hw : w.toNat % 2 ^ s.params.N < s.params.P)
include hf hw

/-- An accepted draw ends the loop, and the later draws are left over (R98, R151). -/
theorem sampleLoop_cons_of_accepted (rest : List Word) :
    sampleLoop fd (w :: rest) s = .done (afterAccepted fd w s) rest := by
  rw [← maskedData_toNat] at hw
  have hexec : exec (.funb fd w) s = .next (afterAccepted fd w s) :=
    congrArg Host.Outcome.next (storeChecked_of_lt hw)
  rw [sampleLoop, issue_of_running hf, hexec, andThen, okFlag_afterAccepted, if_pos rfl]

/-- Rejected draws before the accepted one leave no trace in the end state of `random` (R151). -/
theorem runRandom_of_accepted {bad : List Word} (hbad : ∀ x ∈ bad, s.params.P ≤ x.toNat % 2 ^ s.params.N)
    (rest : List Word) : runRandom fd (bad ++ w :: rest) s = .done (afterAccepted fd w s) rest := by
  have hrunning : (afterRejected bad (s.setReg fd 0)).faultFlag = false := by simpa using hf
  calc runRandom fd (bad ++ w :: rest) s
      = sampleLoop fd (bad ++ w :: rest) (s.setReg fd 0) := runRandom_of_running hf fd _
    _ = sampleLoop fd (w :: rest) (afterRejected bad (s.setReg fd 0)) :=
        sampleLoop_append_of_rejected fd bad _ _ hf hbad
    _ = .done (afterAccepted fd w (afterRejected bad (s.setReg fd 0))) rest :=
        sampleLoop_cons_of_accepted hrunning fd (by simpa using hw) rest
    _ = .done (afterAccepted fd w s) rest := by rw [afterAccepted_afterRejected]

/-- The secret's register keeps its content while `fd0` is sampled, so `SUB` subtracts the sample from the secret
(R153). -/
theorem runShare_of_accepted (fd1 : RegIdx) {fs : RegIdx} (hfs : fd ≠ fs) {bad : List Word}
    (hbad : ∀ x ∈ bad, s.params.P ≤ x.toNat % 2 ^ s.params.N) (rest : List Word) :
    runShare fd fd1 fs (bad ++ w :: rest) s =
      .done ((afterAccepted fd w s).setReg fd1 (fsub s.params (s.reg fs) ((afterAccepted fd w s).reg fd))) rest := by
  have hrunning : (afterAccepted fd w s).faultFlag = false := by simpa using hf
  have hexec : exec (.sub fd1 fs fd) (afterAccepted fd w s) = .next ((afterAccepted fd w s).setReg fd1
      (fsub s.params (s.reg fs) ((afterAccepted fd w s).reg fd))) := by
    rw [← reg_afterAccepted_other fd w s hfs.symm]; rfl
  rw [runShare, runRandom_of_accepted hf fd hw hbad, afterSampling, issue_of_running hrunning, hexec, andThen]

/-- The second `random` starts on the draws that the first leaves (R154). -/
theorem runShareRandom_of_accepted (fd1 : RegIdx) {w' : Word} (hw' : w'.toNat % 2 ^ s.params.N < s.params.P)
    {bad bad' : List Word} (hbad : ∀ x ∈ bad, s.params.P ≤ x.toNat % 2 ^ s.params.N)
    (hbad' : ∀ x ∈ bad', s.params.P ≤ x.toNat % 2 ^ s.params.N) (rest : List Word) :
    runShareRandom fd fd1 (bad ++ w :: (bad' ++ w' :: rest)) s =
      .done (afterAccepted fd1 w' (afterAccepted fd w s)) rest := by
  have hrunning : (afterAccepted fd w s).faultFlag = false := by simpa using hf
  rw [runShareRandom, runRandom_of_accepted hf fd hw hbad, afterSampling]
  exact runRandom_of_accepted hrunning fd1 hw' hbad' rest

end

/-! ### Recombining the shares -/

/-- The difference of two elements, with the second added back, has the first one's value (R153). -/
theorem value_fadd_fsub (p : Params) {a b : Word} (ha : a.toNat ≤ p.feMax) (hb : b.toNat ≤ p.feMax) :
    value p (fadd p b (fsub p a b)) = value p a := by
  refine (value_eq_iff p (fadd_le p _ _) ha).2 ?_
  rw [fadd_comm, fadd_mod p (fsub_le p a b) hb, fsub_mod p ha hb]

/-! ### The obligations -/

/-- Settles O51: the end state is the one that the accepted draw leaves. -/
theorem randomStoresTheFirstAcceptedDraw : Obligations.RandomStoresTheFirstAcceptedDraw :=
  fun s fd _ rest hf hbad w hw => ⟨afterAccepted fd w s, runRandom_of_accepted hf fd hw hbad rest,
    toNat_reg_afterAccepted_same fd w s, okFlag_afterAccepted fd w s, afterAccepted_only fd w s⟩

/-- Settles O52: `fd1` holds the secret minus the sample, and `fd0` keeps the sample, which adds back to the secret. -/
theorem sharesAddUpToTheSecret : Obligations.SharesAddUpToTheSecret := by
  intro s fd0 fd1 fs bad rest w hs hf hfs hne hbad hw
  have hsample : ((afterAccepted fd0 w s).reg fd0).toNat = w.toNat % 2 ^ s.params.N :=
    toNat_reg_afterAccepted_same fd0 w s
  have hlt : ((afterAccepted fd0 w s).reg fd0).toNat < s.params.P := hsample.trans_lt hw
  refine ⟨_, runShare_of_accepted hf fd0 hw fd1 hfs hbad rest, ?_⟩
  rw [reg_setReg_other _ _ hne, reg_setReg_same]
  refine ⟨hsample, hlt, rfl, value_fadd_fsub _ (hs fs) (hlt.le.trans (P_le_feMax _)), fun q hq0 hq1 => ?_, rfl,
    (faultFlag_afterAccepted fd0 w s).trans hf⟩
  rw [reg_setReg_other _ _ hq1, reg_afterAccepted_other fd0 w s hq0]

/-- Settles O53: the second `random` does not write `fd0`. -/
theorem sharedRandomnessTakesTwoDraws : Obligations.SharedRandomnessTakesTwoDraws := by
  intro s fd0 fd1 bad bad' rest w w' hf hne hbads hw hw'
  obtain ⟨hbad, hbad'⟩ := List.forall_mem_append.1 hbads
  refine ⟨_, runShareRandom_of_accepted hf fd0 hw fd1 hw' hbad hbad' rest, ?_⟩
  rw [reg_afterAccepted_other _ _ _ hne, toNat_reg_afterAccepted_same, toNat_reg_afterAccepted_same]
  refine ⟨rfl, hw, rfl, hw', fun q hq0 hq1 => ?_, rfl, by simpa using hf⟩
  rw [reg_afterAccepted_other _ _ _ hq1, reg_afterAccepted_other _ _ _ hq0]

end Sys2Proof.Machine
end

section
/-! The obligations of 60_exceptions.md: the two faults and fault entry (R165 to R167, R170), the halted state (R171),
and a core that is offered nothing (R190). -/

namespace Sys2Proof.Machine

/-! ### When an accepted command faults -/

/-- A zero element where the divisor stands makes the command fault, whatever its other operands (R166). -/
theorem exec_of_zero_divisor {i : Instr} {a : RegIdx} {s : State} (hd : i.divisor = some a)
    (hz : isZero s.params (s.reg a) = true) : exec i s = .next (raiseFault .zeroDivisor (encodeWord i) s) := by
  cases i with
  | recip _ _ | div _ _ _ | rem _ _ _ => cases hd; exact unlessZero_of_zero hz
  | _ => cases hd

/-- A command whose divisor is not zero leaves `FAULT`, `CAUSE` and `FCMD`. -/
theorem Effect.zero_divisor_or_keeps_fault {i : Instr} {s t : State} (h : Effect i s t) :
    (∃ a, i.divisor = some a ∧ isZero s.params (s.reg a) = true ∧
      t = raiseFault .zeroDivisor (encodeWord i) s) ∨
    (t.faultFlag = s.faultFlag ∧ t.cause = s.cause ∧ t.fcmd = s.fcmd) := by
  cases h with
  | zeroDivisor a hd hz e => exact .inl ⟨a, hd, hz, e⟩
  | dout _ _ e | register _ _ _ _ e => subst e; exact .inr ⟨rfl, rfl, rfl⟩
  | accepted _ _ _ _ e | rejected _ _ _ _ e | compared _ _ _ _ e => subst e; exact .inr (by simp [State.cause])

/-- An accepted pair enters a fault by one of the two causes, with its own word in `FCMD`, or leaves `FAULT`, `CAUSE`
and `FCMD` (R166, R167, R170). -/
theorem runCommand_faults_or_keeps {c : Command} {s t : State} (h : runCommand c s = .next t) :
    ((∃ e, decode c = .error e) ∧ t = raiseFault .illegalCommand c.cmd s) ∨
    (∃ i a, decode c = .ok i ∧ i.divisor = some a ∧ isZero s.params (s.reg a) = true ∧
      t = raiseFault .zeroDivisor c.cmd s) ∨
    (t.faultFlag = s.faultFlag ∧ t.cause = s.cause ∧ t.fcmd = s.fcmd) := by
  cases hc : decode c with
  | error e => rw [runCommand_error hc] at h; cases h; exact .inl ⟨⟨e, rfl⟩, rfl⟩
  | ok i =>
    rw [runCommand_ok hc] at h
    rcases (exec_cases h).zero_divisor_or_keeps_fault with ⟨a, hd, hz, ht⟩ | hkeeps
    · rw [encodeWord_of_decode hc] at ht
      exact .inr (.inl ⟨i, a, rfl, hd, hz, ht⟩)
    · exact .inr (.inr hkeeps)

/-- Settles O36: `runCommand_faults_or_keeps` says when the flag is set; an illegal word and a zero divisor each
raise their fault, and `raiseFault_entered` says what that writes. -/
theorem faultsAreExactlyTheTwoOfTheSpec : Obligations.FaultsAreExactlyTheTwoOfTheSpec := by
  intro s c rest hs hf
  rw [step_command hs hf]
  refine ⟨fun t h ht => ?_, fun e he => ?_, fun i a hi hd hz => ?_⟩
  · rcases runCommand_faults_or_keeps h with ⟨he, rfl⟩ | ⟨i, a, hi, hd, hz, rfl⟩ | ⟨hkept, -, -⟩
    · exact .inl ⟨he, raiseFault_entered .illegalCommand _ _⟩
    · exact .inr ⟨i, a, hi, hd, hz, raiseFault_entered .zeroDivisor _ _⟩
    · exact absurd (ht.symm.trans (hkept.trans hf)) (by decide)
  · exact ⟨_, runCommand_error he _, raiseFault_entered .illegalCommand _ _⟩
  · rw [runCommand_ok hi, exec_of_zero_divisor (s := { s with inputs := rest }) hd hz, encodeWord_of_decode hi]
    exact ⟨_, rfl, raiseFault_entered .zeroDivisor _ _⟩

/-! ### What the fault registers record -/

/-- With `CAUSE = 0` there is nothing to record. -/
theorem faultRecorded_of_cause_zero {s : State} (h : s.cause = 0) : s.FaultRecorded :=
  ⟨fun hc => absurd (h.symm.trans hc) (by decide), fun hc => absurd (h.symm.trans hc) (by decide)⟩

theorem faultRecorded_congr {s t : State} (h : s.FaultRecorded) (hcause : t.cause = s.cause)
    (hfcmd : t.fcmd = s.fcmd) : t.FaultRecorded := by
  obtain ⟨hillegal, hzero⟩ := h
  rw [← hcause, ← hfcmd] at hillegal hzero
  exact ⟨hillegal, hzero⟩

theorem faultRecorded_raise_illegalCommand {c : Command} {e : Illegal} (h : decode c = .error e) (s : State) :
    (raiseFault .illegalCommand c.cmd s).FaultRecorded :=
  ⟨fun _ => ⟨e, decode_error_data h 0⟩, fun hc => absurd ((cause_raiseFault s _ _).symm.trans hc) (by decide)⟩

/-- The word of a command with a divisor decodes, with the data word 0 too, to a command with that divisor. -/
theorem faultRecorded_raise_zeroDivisor {c : Command} {i : Instr} {a : RegIdx} (h : decode c = .ok i)
    (hd : i.divisor = some a) (s : State) : (raiseFault .zeroDivisor c.cmd s).FaultRecorded := by
  have hword : decode ⟨c.cmd, 0⟩ = .ok (i.withData 0) := by rw [← encodeWord_of_decode h, decode_encodeWord]
  exact ⟨fun hc => absurd ((cause_raiseFault s _ _).symm.trans hc) (by decide), fun _ => ⟨_, hword, by simp [hd]⟩⟩

theorem runCommand_keeps_faultRecorded {c : Command} {s t : State} (h : runCommand c s = .next t)
    (hs : s.FaultRecorded) : t.FaultRecorded := by
  rcases runCommand_faults_or_keeps h with ⟨⟨e, he⟩, rfl⟩ | ⟨i, a, hi, hd, -, rfl⟩ | ⟨-, hcause, hfcmd⟩
  · exact faultRecorded_raise_illegalCommand he s
  · exact faultRecorded_raise_zeroDivisor hi hd s
  · exact faultRecorded_congr hs hcause hfcmd

/-- Settles O46: after reset `CAUSE` is 0, and an accepted command records its own word or keeps the record. -/
theorem faultRegistersNameTheCulprit : Obligations.FaultRegistersNameTheCulprit := by
  refine ⟨fun c => faultRecorded_of_cause_zero (by simp [State.cause]), fun s t hs h => ?_⟩
  rcases step_cases h with ⟨-, -, rfl⟩ | ⟨rest, -, rfl⟩ | ⟨c, rest, -, -, hc⟩
  · exact hs
  · exact faultRecorded_of_cause_zero (by simp [State.cause])
  · exact runCommand_keeps_faultRecorded hc (faultRecorded_congr hs rfl rfl)

/-! ### The halted state and the idle port -/

/-- Settles O37: `step_halted` for a command, and of the cases of a step only reset does not need a running core. -/
theorem haltedCoreTakesOnlyReset : Obligations.HaltedCoreTakesOnlyReset := by
  refine fun s hf => ⟨fun c rest hs => step_halted hf (by simp [hs]), fun t h => ?_⟩
  rcases step_cases h with ⟨-, hrunning, -⟩ | ⟨rest, hs, rfl⟩ | ⟨-, -, -, hrunning, -⟩
  · exact absurd (hf.symm.trans hrunning) (by decide)
  · exact ⟨rest, hs, faultFlag_applyReset s rest⟩
  · exact absurd (hf.symm.trans hrunning) (by decide)

/-- Settles O40: `step_wait` while the core runs, `step_halted` while it does not. -/
theorem waitingCoreKeepsItsState : Obligations.WaitingCoreKeepsItsState :=
  fun _ hs => ⟨step_wait hs, fun hf => step_halted hf (by simp [hs])⟩

end Sys2Proof.Machine
end

section
/-! The obligations of 70_reset_and_hazards.md: reset (R190), and a defined effect for every pair a running core is
offered (R196, R201). -/

namespace Sys2Proof.Machine

/-- In a legal `STATUS`, `CAUSE` is 0 while `FAULT` is (R28). -/
theorem State.Inv.cause_of_running {s : State} (h : s.Inv) (hf : s.faultFlag = false) : s.cause = 0 := by
  obtain ⟨-, -, hcause⟩ := h.statusLegal
  by_contra hne
  exact absurd (hf.symm.trans (hcause.1 hne)) (by decide)

/-- Settles O35: the step runs the offered pair on the state without it (`step_offerNext`), an accepted pair always
answers a next state, and no command touches the later events or the parameters. -/
theorem everyPairHasAnEffectWhileRunning : Obligations.EveryPairHasAnEffectWhileRunning := by
  intro s c hf
  obtain ⟨t, ht⟩ := runCommand_next c s
  obtain ⟨hbuild, hinputs⟩ := runCommand_build_inputs ht
  exact ⟨t, (step_offerNext c s hf).trans ht, hinputs, hbuild⟩

/-- Settles O38: reset is `applyReset`; any other step needs a running core, where the invariant makes `CAUSE` and
`FCMD` 0. -/
theorem resetLeavesTheResetState : Obligations.ResetLeavesTheResetState := by
  refine ⟨fun s rest hs => ⟨applyReset rest s, step_reset hs, reg_applyReset s rest, rfl, rfl, rfl, rfl⟩,
    fun s t hinv hstep hno => ?_⟩
  have hf : s.faultFlag = false := running_of_step hstep hno
  exact ⟨hf, hinv.cause_of_running hf, hinv.fcmdClear hf⟩

end Sys2Proof.Machine
end
